-- ==== Sys2Proof/Config.lean ====
section
/-! DEFINITION. The implementation parameters of R5: what is fixed when a machine is constructed, the constants of the
block, and the one free value the spec leaves open. -/

namespace Sys2Proof

/-- `WORD_BITS`, the width of a word: accumulator, program counter, memory cell, argument (R5, D1). It is a constant of
the model and not a field of `State`, since the type of a word depends on it; every width and modulus of a word is written
with it, so that another width is another value here (R104; log 11). -/
abbrev Config.wordBits : Nat := 32

/-- The halt strategy, fixed at construction (R5, R82). -/
inductive HaltMode where
  /-- `halt()` clears the running flag and nothing else. -/
  | interactive
  /-- `halt()` also terminates the machine for good. -/
  | batch
  deriving DecidableEq, Repr

/-- What the last write of a left rotation hits (R5, R134, R140). -/
inductive RotMode where
  /-- the vacated high end of the window -/
  | fixed
  /-- one cell past the window -/
  | compat
  deriving DecidableEq, Repr

/-- The construction-time configuration (R5, R20, R22). `MEM_BOUNDS` has one value only, `enforce`, and is built into
`memRead` and `memWrite`; `MEM_SIZE` is `Config.memSize`. -/
structure Config where
  /-- `HALT_MODE` -/
  haltMode : HaltMode
  /-- `ROT_MODE` -/
  rotMode : RotMode
  /-- `CLEAR_SKIPS_LAST`: does `clear` leave cell 511 alone? -/
  clearSkipsLast : Bool
  /-- `CODE_CAPACITY`: the largest program length the code store can hold -/
  codeCapacity : Nat
  deriving DecidableEq, Repr

/-- `MEM_SIZE`: data memory has the addresses 0 to 511 (R5). -/
abbrev Config.memSize : Nat := 512

/-- The bound R15 (decision D5) puts on `CODE_CAPACITY`: 2^31 − 1, the largest position a word can hold. -/
def Config.maxCodeCapacity : Nat := 2 ^ (Config.wordBits - 1) - 1

/-- A configuration a machine may be constructed with: `CODE_CAPACITY` is at most 2^31 − 1 (R15). -/
def Config.valid (c : Config) : Bool := decide (c.codeCapacity ≤ Config.maxCodeCapacity)

/-- The configuration of `State.reset`. `ROT_MODE` and `CLEAR_SKIPS_LAST` are the spec's defaults (D17, D10);
`HALT_MODE` and `CODE_CAPACITY` are the model's (DESIGN CHOICE, log 4, unsafe). -/
def Config.default : Config :=
  { haltMode := .interactive, rotMode := .fixed, clearSkipsLast := true, codeCapacity := Config.maxCodeCapacity }

/-- The content of the scratch register after the `n`-th completed ROT: the spec calls it unspecified (R19), so it is a
free value with no body (log 3, safe). -/
opaque Config.freeScratch : Nat → BitVec Config.wordBits

end Sys2Proof
end

