-- ==== Sys2Proof/Word.lean ====
section
/-! DEFINITION. The machine word. -/

namespace Sys2Proof

/-- A machine word: `WORD_BITS` = 32 bits, read as a two's-complement signed integer by `BitVec.toInt` (R5, R7,
decision D1). `BitVec.toNat` is the spec's `bits(w)`. -/
abbrev Word := BitVec Config.wordBits

end Sys2Proof
end

