-- ==== Sys2Proof/Syntax.lean ====
section
/-! DEFINITION. The instruction slot, the fifteen mnemonics and the instructions. -/

namespace Sys2Proof

/-- An instruction as the code store holds it (R50): a triple, not a bit pattern. -/
structure Slot where
  /-- opcode, an unsigned integer below 2^32 (no word: its range is R50's own, D32) -/
  op : BitVec 32
  /-- argument value, a word -/
  arg : Word
  /-- indirection level, any integer -/
  lvl : Int
  deriving DecidableEq, Repr

/-- The fifteen opcodes of R55, by name. -/
inductive Mnemonic where
  | nop | lod | sto | add | sub | mul | div | and | not | cmpz | cmpl | jump | jmpz | halt | rot
  deriving DecidableEq, Repr

/-- The instructions: one constructor per row of the opcode table, each with the argument and the indirection level of
its slot. NOP, NOT and HALT carry an argument too, since a slot has one whatever its opcode (R58). -/
inductive Instr where
  | nop (arg : Word) (lvl : Int)
  | lod (arg : Word) (lvl : Int)
  | sto (arg : Word) (lvl : Int)
  | add (arg : Word) (lvl : Int)
  | sub (arg : Word) (lvl : Int)
  | mul (arg : Word) (lvl : Int)
  | div (arg : Word) (lvl : Int)
  | and (arg : Word) (lvl : Int)
  | not (arg : Word) (lvl : Int)
  | cmpz (arg : Word) (lvl : Int)
  | cmpl (arg : Word) (lvl : Int)
  | jump (arg : Word) (lvl : Int)
  | jmpz (arg : Word) (lvl : Int)
  | halt (arg : Word) (lvl : Int)
  | rot (arg : Word) (lvl : Int)
  deriving DecidableEq, Repr

/-- The mnemonic of an instruction. -/
def Instr.mnemonic : Instr → Mnemonic
  | .nop _ _ => .nop
  | .lod _ _ => .lod
  | .sto _ _ => .sto
  | .add _ _ => .add
  | .sub _ _ => .sub
  | .mul _ _ => .mul
  | .div _ _ => .div
  | .and _ _ => .and
  | .not _ _ => .not
  | .cmpz _ _ => .cmpz
  | .cmpl _ _ => .cmpl
  | .jump _ _ => .jump
  | .jmpz _ _ => .jmpz
  | .halt _ _ => .halt
  | .rot _ _ => .rot

/-- The argument value of an instruction. -/
def Instr.arg : Instr → Word
  | .nop a _ | .lod a _ | .sto a _ | .add a _ | .sub a _ | .mul a _ | .div a _ | .and a _ | .not a _ | .cmpz a _
  | .cmpl a _ | .jump a _ | .jmpz a _ | .halt a _ | .rot a _ => a

/-- The indirection level of an instruction. -/
def Instr.lvl : Instr → Int
  | .nop _ l | .lod _ l | .sto _ l | .add _ l | .sub _ l | .mul _ l | .div _ l | .and _ l | .not _ l | .cmpz _ l
  | .cmpl _ l | .jump _ l | .jmpz _ l | .halt _ l | .rot _ l => l

/-- The instruction of a mnemonic with an argument and a level. -/
def Mnemonic.instr : Mnemonic → Word → Int → Instr
  | .nop => .nop
  | .lod => .lod
  | .sto => .sto
  | .add => .add
  | .sub => .sub
  | .mul => .mul
  | .div => .div
  | .and => .and
  | .not => .not
  | .cmpz => .cmpz
  | .cmpl => .cmpl
  | .jump => .jump
  | .jmpz => .jmpz
  | .halt => .halt
  | .rot => .rot

end Sys2Proof
end

