-- ==== Sys2Proof/Machine/Table.lean ====
section
/-! DEFINITION. The instruction table: the operation descriptor of each opcode (R62), the one record the decoder, the
resolver and the assembler look up. -/

namespace Sys2Proof

/-- How many operands a mnemonic takes (R62). -/
inductive Arity where
  | none
  | one
  deriving DecidableEq, Repr

/-- An operation descriptor (R62): the closed interval of allowed levels, the arity, and the two capability flags of the
assembler. For the no-argument opcodes the flags are "n/a" in the spec and never read; they stand as `false`. -/
structure Descriptor where
  min : Int
  max : Int
  arity : Arity
  permitsImmediate : Bool
  permitsIndirect : Bool
  deriving DecidableEq, Repr

/-- The base level, at which the resolver stops: the smallest allowed level (R62). -/
def Descriptor.base (d : Descriptor) : Int := d.min

/-- The descriptors of R62, row by row. -/
def Mnemonic.descriptor : Mnemonic → Descriptor
  | .nop  => ⟨0, 0, .none, false, false⟩
  | .lod  => ⟨0, 2, .one, true, true⟩
  | .sto  => ⟨1, 2, .one, false, true⟩
  | .add  => ⟨0, 2, .one, true, true⟩
  | .sub  => ⟨0, 2, .one, true, true⟩
  | .mul  => ⟨0, 2, .one, true, true⟩
  | .div  => ⟨0, 2, .one, true, true⟩
  | .and  => ⟨0, 1, .one, true, false⟩
  | .not  => ⟨0, 0, .none, false, false⟩
  | .cmpz => ⟨1, 1, .one, false, false⟩
  | .cmpl => ⟨1, 1, .one, false, false⟩
  | .jump => ⟨0, 1, .one, true, false⟩
  | .jmpz => ⟨0, 1, .one, true, false⟩
  | .halt => ⟨0, 0, .none, false, false⟩
  | .rot  => ⟨0, 0, .one, true, false⟩

/-- Is the level inside the opcode's allowed interval (R57, R74)? -/
def Mnemonic.allowsLevel (m : Mnemonic) (lvl : Int) : Bool :=
  decide (m.descriptor.min ≤ lvl) && decide (lvl ≤ m.descriptor.max)

end Sys2Proof
end

