-- ==== Sys2Proof/WellFormed.lean ====
section
/-! DEFINITION. Which instructions are legal encodings: the level lies in the opcode's interval (R57). -/

namespace Sys2Proof

/-- An instruction is well formed when its indirection level is one its opcode allows (R57, R74). The argument is
unconstrained (R58, R59). -/
def Instr.wellFormed (i : Instr) : Bool := i.mnemonic.allowsLevel i.lvl

end Sys2Proof
end

