-- ==== Sys2Proof/Decode.lean ====
section
/-! DEFINITION. The opcode map (R55), the decoder from slots to instructions, the encoder back, and the packing of a slot
into one number with which the host asks its two questions. -/

namespace Sys2Proof

/-- The opcode map as the decoder reads it (R55): the whole `op` field is compared with these fifteen values. -/
def opcodeTable : List (BitVec 32 × Mnemonic) :=
  [(0x0, .nop), (0x1, .lod), (0x2, .sto), (0x3, .add), (0x4, .sub), (0x5, .mul), (0x6, .div), (0x7, .and), (0x8, .not),
   (0x9, .cmpz), (0xA, .cmpl), (0xB, .jump), (0xC, .jmpz), (0xF, .halt), (0x14, .rot)]

/-- Lookup (R73): the table's row with exactly this opcode, if any. -/
def lookupOpcode (op : BitVec 32) : Option Mnemonic :=
  (opcodeTable.find? (fun row => row.1 == op)).map (fun row => row.2)

/-- Why a slot does not decode. -/
inductive DecodeError where
  /-- the opcode is not one of the fifteen (R56, R73) -/
  | unknownOpcode (op : BitVec 32)
  deriving DecidableEq, Repr

/-- The decoder, total on slots. It looks at `op` alone; the level is validated by the instruction (R73, R74). -/
def decode (slot : Slot) : Except DecodeError Instr :=
  match lookupOpcode slot.op with
  | some m => .ok (m.instr slot.arg slot.lvl)
  | none => .error (.unknownOpcode slot.op)

/-- The opcode of each mnemonic as the encoder writes it (R55, R159). -/
def Mnemonic.opcode : Mnemonic → BitVec 32
  | .nop  => 0x0
  | .lod  => 0x1
  | .sto  => 0x2
  | .add  => 0x3
  | .sub  => 0x4
  | .mul  => 0x5
  | .div  => 0x6
  | .and  => 0x7
  | .not  => 0x8
  | .cmpz => 0x9
  | .cmpl => 0xA
  | .jump => 0xB
  | .jmpz => 0xC
  | .halt => 0xF
  | .rot  => 0x14

/-- The encoder: the slot of an instruction (R50, R55). -/
def encode (i : Instr) : Slot := ⟨i.mnemonic.opcode, i.arg, i.lvl⟩

/-- The slot packed in a number of `nbits` bits: `op` in bits 31..0, `arg` in bits 63..32, the level above (unsigned).
The spec packs nothing (R50, R64), so this order is the model's own (DESIGN CHOICE, log 7); bits at and above `nbits`
are 0. -/
def slotOfTableWord (nbits w : Nat) : Slot :=
  let v := w % 2 ^ nbits
  ⟨BitVec.ofNat 32 v, BitVec.ofNat Config.wordBits (v / 2 ^ 32), Int.ofNat (v / 2 ^ (32 + Config.wordBits))⟩

/-- What the decoder reads from a row's number in spec/opcode_table.json. -/
def decodeTableWord (nbits w : Nat) : Option Instr :=
  match decode (slotOfTableWord nbits w) with
  | .ok i => some i
  | .error _ => none

end Sys2Proof
end

