-- ==== Sys2Proof/Machine/State.lean ====
section
/-! DEFINITION. The state of one machine instance (R10), its failures, and its value after reset (R25, R230). -/

namespace Sys2Proof.Machine

/-- The reasons the host's interface would report a step as stopped. There are none: every failure of this machine is
an entry the spec describes (R208) and is taken as a next state, and the gate answers a next state too (R71). -/
inductive Fault where
  deriving DecidableEq, Repr

/-- The reasons an instruction could be refused. -/
inductive Refusal where
  /-- Raised by an arm of `exec` whose instruction has no meaning yet; no arm is such, so nothing raises it. Safe. -/
  | notModelled (mnemonic : String)
  deriving DecidableEq, Repr

/-- The six failure causes of R200. -/
inductive Cause where
  | fetchOutOfRange
  | unknownOpcode
  | invalidIndirection
  | outOfRange
  | arithmeticError
  | rangeError
  deriving DecidableEq, Repr

/-- The content of the fault latch (R18, R200): the cause, and the word or unbounded integer the cause records. -/
structure FaultRecord where
  cause : Cause
  info : Int
  deriving DecidableEq, Repr

/-- A memory cell that holds something: its address and its word. The smallest addressable unit is the word (R13, R36). -/
abbrev Cell := Nat × Word

/-- Data memory: the non-zero cells, addresses strictly rising. A cell not listed holds 0 (R25, R26; log 1). -/
abbrev Memory := List Cell

/-- The complete state of one machine instance (R10). -/
structure State where
  /-- the accumulator (R11) -/
  acc : Word
  /-- the program counter, any word (R12) -/
  pc : Word
  /-- data memory `M[0..511]` (R13) -/
  mem : Memory
  /-- the address of the most recent memory write (R14) -/
  lastChanged : Option Nat
  /-- the code store; `N` is its length (R15) -/
  code : List Slot
  /-- running or halted (R16) -/
  running : Bool
  /-- batch mode's halt has happened (R17) -/
  terminated : Bool
  /-- the fault latch (R18) -/
  fault : Option FaultRecord
  /-- ROT's scratch register (R19) -/
  scratch : Word
  /-- the construction-time configuration, constant for the life of an instance (R5, R20; log 4) -/
  config : Config
  /-- the model's own: how many free values have been drawn (log 3) -/
  freeIndex : Nat
  deriving DecidableEq, Repr

/-- Reset is the construction of a machine instance with its configuration (R230): every value of the "after reset"
column of R25. `scratch` is unspecified there and stands as 0 (DESIGN CHOICE, log 2, unsafe). -/
def State.construct (c : Config) : State :=
  { acc := 0, pc := 0, mem := [], lastChanged := none, code := [], running := false, terminated := false, fault := none,
    scratch := 0, config := c, freeIndex := 0 }

/-- The machine right after reset, constructed with `Config.default` (log 4). -/
def State.reset : State := State.construct Config.default

end Sys2Proof.Machine
end

