-- ==== Sys2Proof/Machine/Ops.lean ====
section
/-! DEFINITION. The shared operations over memory, registers and the code store: the access primitives (R32 to R34), the
fetch (R72), the entry into a failure (R208), and the ways into and out of the halted state (R82, R84, R231). -/

namespace Sys2Proof.Machine

/-- The word congruent to a mathematical integer modulo 2^`WORD_BITS` (R7). -/
def wrap (v : Int) : Word := BitVec.ofInt Config.wordBits v

/-! ### Memory as a canonical list -/

/-- The word at an address; an unlisted cell holds 0 (R26). -/
def Memory.read : Memory → Nat → Word
  | [], _ => 0
  | (b, w) :: rest, a => if b = a then w else Memory.read rest a

/-- Put a cell at its place in the rising order. -/
def Memory.insert (a : Nat) (v : Word) : Memory → Memory
  | [] => [(a, v)]
  | (b, w) :: rest => if a < b then (a, v) :: (b, w) :: rest else (b, w) :: Memory.insert a v rest

/-- Replace the word at an address. Writing 0 removes the entry. -/
def Memory.write (m : Memory) (a : Nat) (v : Word) : Memory :=
  let others := m.filter (fun c => c.1 != a)
  if v = 0 then others else Memory.insert a v others

/-- The canonical form: addresses strictly rising and below 512, no word 0. -/
def Memory.wf : Memory → Bool
  | [] => true
  | [(a, w)] => decide (a < Config.memSize) && decide (w ≠ 0)
  | (a, w) :: (b, x) :: rest => decide (a < b) && decide (w ≠ 0) && Memory.wf ((b, x) :: rest)

/-! ### Register and memory updates -/

/-- `acc <- v` -/
def State.setAcc (s : State) (v : Word) : State := { s with acc := v }

/-- `pc <- v` -/
def State.setPc (s : State) (v : Word) : State := { s with pc := v }

/-- `pc <- pc + 1`, the sequential advance (R79). -/
def State.advance (s : State) : State := { s with pc := s.pc + 1 }

/-- A successful write: `M[a] <- v; lastChanged <- a` (R33). -/
def State.storeCell (s : State) (a : Nat) (v : Word) : State :=
  { s with mem := s.mem.write a v, lastChanged := some a }

/-! ### The access primitives -/

/-- The bounds of data memory, on an unbounded integer (R34). -/
def inBounds (a : Int) : Bool := decide (0 ≤ a) && decide (a < Config.memSize)

/-- `MemRead(a, 1)` (R32): the word, or OutOfRange(a) (R34). -/
def memRead (a : Int) (s : State) : Except FaultRecord Word :=
  if inBounds a then .ok (s.mem.read a.toNat) else .error ⟨.outOfRange, a⟩

/-- `MemWrite(a, 1, v)` (R33): the cell and the marker are written, or OutOfRange(a) (R34). -/
def memWrite (a : Int) (v : Word) (s : State) : Except FaultRecord State :=
  if inBounds a then .ok (s.storeCell a.toNat v) else .error ⟨.outOfRange, a⟩

/-! ### The gate and the fetch -/

/-- The gate (R71): a terminated machine and a machine that is not running perform no instruction. -/
def gated (s : State) : Bool := s.terminated || !s.running

/-- The slot at the program counter, or FetchOutOfRange(pc) (R72). -/
def fetch (s : State) : Except FaultRecord Slot :=
  if s.pc.toInt < 0 then .error ⟨.fetchOutOfRange, s.pc.toInt⟩
  else match s.code[s.pc.toInt.toNat]? with
    | some slot => .ok slot
    | none => .error ⟨.fetchOutOfRange, s.pc.toInt⟩

/-- The failure of a fetched slot that does not decode (R73). -/
def lookupFailure : DecodeError → FaultRecord
  | .unknownOpcode op => ⟨.unknownOpcode, op.toNat⟩

/-- A running machine with a slot placed where the next fetch reads: at `pc` when it names a slot, else as a program of
one slot with `pc` at it. Used by `State.withFetchWord` only (log 8). -/
def State.placeSlot (s : State) (slot : Slot) : State :=
  if 0 ≤ s.pc.toInt ∧ s.pc.toInt.toNat < s.code.length then
    { s with code := s.code.set s.pc.toInt.toNat slot, running := true, terminated := false }
  else { s with code := [slot], pc := 0, running := true, terminated := false }

/-! ### Failure entry, and the ways out of the halted state -/

/-- The numeric code of a cause (R200). -/
def Cause.code : Cause → Nat
  | .fetchOutOfRange => 1
  | .unknownOpcode => 2
  | .invalidIndirection => 3
  | .outOfRange => 4
  | .arithmeticError => 5
  | .rangeError => 6

/-- `raise F(info)`, the entry into every failure (R208): `running <- false`, `fault <- (F, info)`, and nothing else. No
handler runs and no state is saved elsewhere. -/
def raise (f : FaultRecord) (s : State) : State := { s with running := false, fault := some f }

/-- The halt strategy `halt()` (R82): interactive clears `running`; batch also sets `terminated`. -/
def haltStrategy (s : State) : State :=
  match s.config.haltMode with
  | .interactive => { s with running := false }
  | .batch => { s with running := false, terminated := true }

/-- The host command `start()` (R84): refused, with nothing changed, while terminated or while the fault latch is set. -/
def startCommand (s : State) : State :=
  if s.terminated = false ∧ s.fault = none then { s with running := true } else s

/-- The memory part of `clear()` (R40): cells 0 to 510 are zeroed; cell 511 is kept when `CLEAR_SKIPS_LAST`. -/
def Memory.cleared (skipsLast : Bool) (m : Memory) : Memory :=
  if skipsLast then m.filter (fun c => c.1 == Config.memSize - 1) else []

/-- The host command `clear()`, the explicit reset that empties the fault latch (R231, R25). There is no return-from-failure
instruction: `clear()` then `start()` is the way on (R210). -/
def clearCommand (s : State) : State :=
  if s.terminated then s
  else { s with acc := 0, pc := 0, mem := s.mem.cleared s.config.clearSkipsLast, lastChanged := none, running := false,
                fault := none }

/-- The host command `halt()` (R82); without effect once terminated (R17). -/
def haltCommand (s : State) : State := if s.terminated then s else haltStrategy s

end Sys2Proof.Machine
end

