-- ==== Sys2Proof/Machine/Operands.lean ====
section
/-! DEFINITION. Level validation and the multi-level indirection resolver (R74 to R78), and the one shape every
instruction has: validate, resolve, perform, and on any failure enter it from the untouched state (R70, R81). -/

namespace Sys2Proof.Machine

/-- The outcome type of a meaning. -/
abbrev Result := Host.Outcome State Fault Refusal

/-- Level validation (R74): InvalidIndirection(lvl) outside the opcode's interval. -/
def validateLevel (m : Mnemonic) (lvl : Int) : Except FaultRecord Unit :=
  if m.allowsLevel lvl then .ok () else .error ⟨.invalidIndirection, lvl⟩

/-- `n` successive dereferences of a word (R75), each bounds-checked (R78). -/
def dereference : Nat → Word → State → Except FaultRecord Word
  | 0, v, _ => .ok v
  | n + 1, v, s =>
    match memRead v.toInt s with
    | .ok w => dereference n w s
    | .error f => .error f

/-- The terminal operand of `(arg, lvl)`: `lvl − base` dereferences (R75, R76). -/
def resolve (m : Mnemonic) (arg : Word) (lvl : Int) (s : State) : Except FaultRecord Word :=
  dereference (lvl - m.descriptor.base).toNat arg s

/-- Perform an instruction: validate the level, resolve the operand, run the opcode's semantics on the terminal operand.
A failure of any stage is entered from the state before the instruction, so it leaves no partial effect (R81, R208). -/
def withOperand (m : Mnemonic) (arg : Word) (lvl : Int) (s : State) (semantics : Word → Except FaultRecord State) :
    Result :=
  match validateLevel m lvl with
  | .error f => .next (raise f s)
  | .ok _ =>
    match resolve m arg lvl s with
    | .error f => .next (raise f s)
    | .ok v =>
      match semantics v with
      | .error f => .next (raise f s)
      | .ok t => .next t

end Sys2Proof.Machine
end

