-- ==== Sys2Proof/Machine/Arithmetic.lean ====
section
/-! DEFINITION. ADD, SUB, MUL, DIV (42_arithmetic.md). The four arithmetic functions are configuration (R104): the
instructions use those of `Config.arithmetic`, where another policy can be put in their place. Each function of the spec's
policy computes the exact integer and narrows at the end. -/

namespace Sys2Proof.Machine

/-- `wrap(a + b)` (R100). -/
def wordAdd (a b : Word) : Word := wrap (a.toInt + b.toInt)

/-- `wrap(a − b)` (R101). -/
def wordSub (a b : Word) : Word := wrap (a.toInt - b.toInt)

/-- `wrap(a · b)` (R102). -/
def wordMul (a b : Word) : Word := wrap (a.toInt * b.toInt)

/-- `wrap(a ÷ b)`, the quotient truncated toward zero (R103). -/
def wordDiv (a b : Word) : Word := wrap (Int.tdiv a.toInt b.toInt)

/-- An arithmetic policy (R104): what ADD, SUB, MUL and a DIV by a divisor other than 0 leave in `acc`. -/
structure ArithmeticPolicy where
  add : Word → Word → Word
  sub : Word → Word → Word
  mul : Word → Word → Word
  div : Word → Word → Word

/-- The spec's policy: wrap around modulo 2^`WORD_BITS`, truncate the quotient toward zero (R104, D1, D2). -/
def wrappingPolicy : ArithmeticPolicy := { add := wordAdd, sub := wordSub, mul := wordMul, div := wordDiv }

end Sys2Proof.Machine

namespace Sys2Proof

/-- The arithmetic functions this machine is configured with (R104; log 11). -/
def Config.arithmetic : Machine.ArithmeticPolicy := Machine.wrappingPolicy

end Sys2Proof

namespace Sys2Proof.Machine

/-- ADD (R100). -/
def execAdd (arg : Word) (lvl : Int) (s : State) : Result :=
  withOperand .add arg lvl s fun v => .ok (s.setAcc (Config.arithmetic.add s.acc v)).advance

/-- SUB (R101): the accumulator is the minuend. -/
def execSub (arg : Word) (lvl : Int) (s : State) : Result :=
  withOperand .sub arg lvl s fun v => .ok (s.setAcc (Config.arithmetic.sub s.acc v)).advance

/-- MUL (R102). -/
def execMul (arg : Word) (lvl : Int) (s : State) : Result :=
  withOperand .mul arg lvl s fun v => .ok (s.setAcc (Config.arithmetic.mul s.acc v)).advance

/-- DIV (R103): the resolved divisor 0 raises ArithmeticError. -/
def execDiv (arg : Word) (lvl : Int) (s : State) : Result :=
  withOperand .div arg lvl s fun v =>
    if v = 0 then .error ⟨.arithmeticError, 0⟩ else .ok (s.setAcc (Config.arithmetic.div s.acc v)).advance

end Sys2Proof.Machine
end

