-- ==== Sys2Proof/Machine/Flags.lean ====
section
/-! DEFINITION. Truth values. The machine has no flags (R21): a comparison delivers the word 0 or 1 in `acc`, and a word
is false exactly when it is 0 (R114). -/

namespace Sys2Proof.Machine

/-- The word of a truth value: 1 for true, 0 for false (R114). -/
def truthWord (b : Bool) : Word := if b then 1 else 0

/-- Is the word 0? (R111, R112, R121) -/
def isZero (w : Word) : Bool := decide (w = 0)

/-- Is the word negative, as a signed integer? (R113) -/
def isNegative (w : Word) : Bool := decide (w.toInt < 0)

end Sys2Proof.Machine
end

