-- ==== Sys2Proof/Machine/Control.lean ====
section
/-! DEFINITION. JUMP, JMPZ, HALT (44_control.md). -/

namespace Sys2Proof.Machine

/-- JUMP (R120): absolute, the target unchecked. -/
def execJump (arg : Word) (lvl : Int) (s : State) : Result :=
  withOperand .jump arg lvl s fun v => .ok (s.setPc v)

/-- JMPZ (R121): the operand is resolved whether or not the jump is taken. -/
def execJmpz (arg : Word) (lvl : Int) (s : State) : Result :=
  withOperand .jmpz arg lvl s fun v => .ok (if isZero s.acc then s.setPc v else s.advance)

/-- HALT (R122): the halt strategy; `pc` is not written. -/
def execHalt (arg : Word) (lvl : Int) (s : State) : Result :=
  withOperand .halt arg lvl s fun _ => .ok (haltStrategy s)

end Sys2Proof.Machine
end

