-- ==== Sys2Proof/Machine/LoadStore.lean ====
section
/-! DEFINITION. NOP, LOD, STO (41_nop_load_store.md). -/

namespace Sys2Proof.Machine

/-- NOP (R90). -/
def execNop (arg : Word) (lvl : Int) (s : State) : Result :=
  withOperand .nop arg lvl s fun _ => .ok s.advance

/-- LOD (R91). -/
def execLod (arg : Word) (lvl : Int) (s : State) : Result :=
  withOperand .lod arg lvl s fun v => .ok (s.setAcc v).advance

/-- STO (R92): the terminal operand is the address stored to. -/
def execSto (arg : Word) (lvl : Int) (s : State) : Result :=
  withOperand .sto arg lvl s fun v =>
    match memWrite v.toInt s.acc s with
    | .ok t => .ok t.advance
    | .error f => .error f

end Sys2Proof.Machine
end

