-- ==== Sys2Proof/Machine/Logic.lean ====
section
/-! DEFINITION. AND, NOT, CMPZ, CMPL (43_logic_compare.md). -/

namespace Sys2Proof.Machine

/-- AND, logical (R110). -/
def execAnd (arg : Word) (lvl : Int) (s : State) : Result :=
  withOperand .and arg lvl s fun v => .ok (s.setAcc (truthWord (!isZero v && !isZero s.acc))).advance

/-- NOT, logical, of the accumulator (R111). -/
def execNot (arg : Word) (lvl : Int) (s : State) : Result :=
  withOperand .not arg lvl s fun _ => .ok (s.setAcc (truthWord (isZero s.acc))).advance

/-- CMPZ (R112): the terminal operand is the address read. -/
def execCmpz (arg : Word) (lvl : Int) (s : State) : Result :=
  withOperand .cmpz arg lvl s fun v =>
    match memRead v.toInt s with
    | .ok t => .ok (s.setAcc (truthWord (isZero t))).advance
    | .error f => .error f

/-- CMPL (R113): a signed comparison of the cell with 0. -/
def execCmpl (arg : Word) (lvl : Int) (s : State) : Result :=
  withOperand .cmpl arg lvl s fun v =>
    match memRead v.toInt s with
    | .ok t => .ok (s.setAcc (truthWord (isNegative t))).advance
    | .error f => .error f

end Sys2Proof.Machine
end

