-- ==== Sys2Proof/Machine/Rotate.lean ====
section
/-! DEFINITION. ROT, the block rotate (45_rotate.md). What runs is the closed form of R137 and R140, since a shift count
reaches 2^31; the loops of R134, R135 and R140 stand beside it and are what the closed form is stated equal to. -/

namespace Sys2Proof.Machine

/-- The three control words, as signed integers (R132). -/
structure RotControl where
  start : Int
  length : Int
  shift : Int
  deriving DecidableEq, Repr

/-- Read the control cells at `v`, `v+1`, `v+2`, in that order (R132). -/
def rotControl (v : Int) (s : State) : Except FaultRecord RotControl :=
  match memRead v s with
  | .error f => .error f
  | .ok a =>
    match memRead (v + 1) s with
    | .error f => .error f
    | .ok b =>
      match memRead (v + 2) s with
      | .error f => .error f
      | .ok c => .ok ⟨a.toInt, b.toInt, c.toInt⟩

/-- Do the control cells and the window have a cell in common (R133 d)? An empty window overlaps nothing. -/
def RotControl.overlaps (c : RotControl) (v : Int) : Bool :=
  decide (1 ≤ c.length) && decide (c.start ≤ v + 2) && decide (v ≤ c.start + c.length - 1)

/-- The validation of R133, in unbounded integers. -/
def RotControl.valid (c : RotControl) (v : Int) : Bool :=
  decide (0 ≤ c.start) && decide (0 ≤ c.length) && decide (c.start + c.length - 1 < Config.memSize) && !c.overlaps v

/-- Does the compat pre-check fail (R140)? -/
def RotControl.overruns (c : RotControl) (mode : RotMode) : Bool :=
  decide (mode = .compat) && decide (c.shift < 0) && decide (1 ≤ c.length) && decide (Config.memSize - 1 < c.start + c.length)

/-- All that ROT checks before its first write (R131). -/
def rotCheck (v : Int) (s : State) : Except FaultRecord RotControl :=
  match rotControl v s with
  | .error f => .error f
  | .ok c =>
    if !c.valid v then .error ⟨.rangeError, v⟩
    else if c.overruns s.config.rotMode then .error ⟨.outOfRange, c.start + c.length⟩
    else .ok c

/-- The words of the window, from its low end (`W` of 45_rotate.md). -/
def Memory.window (m : Memory) (start : Nat) (length : Nat) : List Word :=
  (List.range length).map fun i => m.read (start + i)

/-- Write consecutive cells from an address up. -/
def Memory.writeBlock (m : Memory) : Nat → List Word → Memory
  | _, [] => m
  | a, w :: rest => Memory.writeBlock (m.write a w) (a + 1) rest

/-- The words left by a rotation, from the window's low end: R137 in fixed mode, R140 for a compat left rotation, which
covers one cell more than the window. -/
def rotated (mode : RotMode) (shift : Int) (w : List Word) : List Word :=
  let l := w.length
  let n := shift.natAbs
  if 0 < shift then (List.range l).map fun i => w.getD ((i + (l - n % l)) % l) 0
  else match mode with
    | .fixed => (List.range l).map fun i => w.getD ((i + n) % l) 0
    | .compat => ((List.range l).map fun i => w.getD (min (i + n) (l - 1)) 0) ++ [w.getD (min (n - 1) (l - 1)) 0]

/-- The address of the last write of a rotation (R139, R140). -/
def RotControl.lastWrite (c : RotControl) (mode : RotMode) : Nat :=
  if 0 < c.shift then c.start.toNat
  else match mode with
    | .fixed => (c.start + c.length - 1).toNat
    | .compat => (c.start + c.length).toNat

/-- The memory effect of a checked ROT: none for shift 0 or an empty window (R136, R138). -/
def rotateWindow (c : RotControl) (s : State) : State :=
  if c.shift = 0 ∨ c.length = 0 then s
  else
    { s with
      mem := s.mem.writeBlock c.start.toNat
        (rotated s.config.rotMode c.shift (s.mem.window c.start.toNat c.length.toNat))
      lastChanged := some (c.lastWrite s.config.rotMode) }

/-- After a completed ROT the scratch register holds an unspecified word (R19): a fresh free value (log 3, safe). -/
def State.freeScratch (s : State) : State :=
  { s with scratch := Config.freeScratch s.freeIndex, freeIndex := s.freeIndex + 1 }

/-- ROT (R130, R131): all checks, then the rotation, then `pc <- pc + 1` (R141). -/
def execRot (arg : Word) (lvl : Int) (s : State) : Result :=
  withOperand .rot arg lvl s fun v =>
    match rotCheck v.toInt s with
    | .error f => .error f
    | .ok c => .ok (rotateWindow c s).freeScratch.advance

/-! ### The loops of the pseudocode -/

/-- The ascending inner loop: for `j` from `a`, `n` times, cell `j` takes the value of cell `j+1` (R134). -/
def moveDown : Nat → Nat → State → State
  | 0, _, s => s
  | n + 1, a, s => moveDown n (a + 1) (s.storeCell a (s.mem.read (a + 1)))

/-- The descending inner loop: for `j` from `a + n` down to `a + 1`, cell `j` takes the value of cell `j−1` (R135). -/
def moveUp : Nat → Nat → State → State
  | 0, _, s => s
  | n + 1, a, s => moveUp n a (s.storeCell (a + n + 1) (s.mem.read (a + n)))

/-- `rotate_left_one(s, l)` (R134), for `l ≥ 1`. -/
def rotateLeftOne (a l : Nat) (s : State) : State :=
  let s1 := moveDown (l - 1) a { s with scratch := s.mem.read a }
  s1.storeCell (a + l - 1) s1.scratch

/-- `rotate_left_one_compat(s, l)` (R140), for `l ≥ 1`. -/
def rotateLeftOneCompat (a l : Nat) (s : State) : State :=
  let s1 := moveDown (l - 1) a { s with scratch := s.mem.read a }
  s1.storeCell (a + l) s1.scratch

/-- `rotate_right_one(s, l)` (R135), for `l ≥ 1`. -/
def rotateRightOne (a l : Nat) (s : State) : State :=
  let s1 := moveUp (l - 1) a { s with scratch := s.mem.read (a + l - 1) }
  s1.storeCell a s1.scratch

/-- Repeat an iteration (R131). -/
def repeatTimes : Nat → (State → State) → State → State
  | 0, _, s => s
  | n + 1, f, s => repeatTimes n f (f s)

/-- The repeat loops of R131 on a checked control block. -/
def rotateLoops (c : RotControl) (s : State) : State :=
  if c.length < 1 then s
  else if c.shift < 0 then
    match s.config.rotMode with
    | .fixed => repeatTimes c.shift.natAbs (rotateLeftOne c.start.toNat c.length.toNat) s
    | .compat => repeatTimes c.shift.natAbs (rotateLeftOneCompat c.start.toNat c.length.toNat) s
  else if 0 < c.shift then repeatTimes c.shift.natAbs (rotateRightOne c.start.toNat c.length.toNat) s
  else s

end Sys2Proof.Machine
end

