-- ==== Sys2Proof/Machine/Dispatch.lean ====
section
/-! DEFINITION. The dispatch multiplexer (R77): one arm per opcode. -/

namespace Sys2Proof.Machine

def exec (i : Instr) (s : State) : Host.Outcome State Fault Refusal :=
  match i with
  | .nop arg lvl => Sys2Proof.Machine.execNop arg lvl s
  | .lod arg lvl => Sys2Proof.Machine.execLod arg lvl s
  | .sto arg lvl => Sys2Proof.Machine.execSto arg lvl s
  | .add arg lvl => Sys2Proof.Machine.execAdd arg lvl s
  | .sub arg lvl => Sys2Proof.Machine.execSub arg lvl s
  | .mul arg lvl => Sys2Proof.Machine.execMul arg lvl s
  | .div arg lvl => Sys2Proof.Machine.execDiv arg lvl s
  | .and arg lvl => Sys2Proof.Machine.execAnd arg lvl s
  | .not arg lvl => Sys2Proof.Machine.execNot arg lvl s
  | .cmpz arg lvl => Sys2Proof.Machine.execCmpz arg lvl s
  | .cmpl arg lvl => Sys2Proof.Machine.execCmpl arg lvl s
  | .jump arg lvl => Sys2Proof.Machine.execJump arg lvl s
  | .jmpz arg lvl => Sys2Proof.Machine.execJmpz arg lvl s
  | .halt arg lvl => Sys2Proof.Machine.execHalt arg lvl s
  | .rot arg lvl => Sys2Proof.Machine.execRot arg lvl s

end Sys2Proof.Machine
end

