-- ==== Sys2Proof/Machine/Step.lean ====
section
/-! DEFINITION. One step (R70). -/

namespace Sys2Proof.Machine

/-- `step()` (R70): the gate (R71), fetch (R72), lookup (R73); validation, resolution and dispatch are `exec`'s. A gated
step changes nothing; a failure is entered as R208 says. -/
def step (s : State) : Host.Outcome State Fault Refusal :=
  if gated s then .next s
  else
    match fetch s with
    | .error f => .next (raise f s)
    | .ok slot =>
      match decode slot with
      | .error e => .next (raise (lookupFailure e) s)
      | .ok i => exec i s

/-- The machine with the slot of a table word placed where the next fetch reads it, and running: this stands for the
loader's write and the host's `start()` (log 8). -/
def State.withFetchWord (s : State) (nbits w : Nat) : State :=
  s.placeSlot (slotOfTableWord nbits w)

end Sys2Proof.Machine
end

