-- ==== Sys2Proof/Machine/Text.lean ====
section
/-! DEFINITION. Lines, tokens and numerals (R7, R52, R166), and the text form of a slot and of a data word
(R51, R53, R54). -/

namespace Sys2Proof.Assembler

/-- A line without its terminator (R7). -/
abbrev Line := List Char

/-- Space or horizontal tab (R7). -/
def isWhitespace (c : Char) : Bool := c == ' ' || c == '\t'

/-- `tokens`, with the run of non-whitespace characters read so far. -/
def tokensFrom (word : Line) : Line → List Line
  | [] => if word.isEmpty then [] else [word]
  | c :: rest =>
    if isWhitespace c then
      if word.isEmpty then tokensFrom [] rest else word :: tokensFrom [] rest
    else tokensFrom (word ++ [c]) rest

/-- `tokens(L)`: the maximal runs of non-whitespace characters, in order (R7). -/
def tokens (line : Line) : List Line := tokensFrom [] line

/-- `a` to `z` become `A` to `Z`; other characters stay (R7). -/
def upperChar (c : Char) : Char := if 'a' ≤ c ∧ c ≤ 'z' then Char.ofNat (c.toNat - 32) else c

/-- `upper(s)` (R7). -/
def upper (line : Line) : Line := line.map upperChar

/-- A line without its leading and trailing whitespace (R156). -/
def trim (line : Line) : Line := ((line.dropWhile isWhitespace).reverse.dropWhile isWhitespace).reverse

/-- The upper-case hexadecimal digit of a number below 16. -/
def hexDigit (n : Nat) : Char := if n < 10 then Char.ofNat (48 + n) else Char.ofNat (55 + n)

/-- The digits of a number in a base, in front of `rest`, with fuel for the number of digits. -/
def digitsFrom (base : Nat) : Nat → Nat → Line → Line
  | 0, _, rest => rest
  | fuel + 1, n, rest =>
    if n < base then hexDigit n :: rest else digitsFrom base fuel (n / base) (hexDigit (n % base) :: rest)

/-- The shortest numeral of a number in a base from 2 to 16. -/
def numeral (base n : Nat) : Line := digitsFrom base (Nat.log2 n + 1) n []

/-- `hexU(n)`: the shortest upper-case hexadecimal numeral (R7). -/
def hexU (n : Nat) : Line := numeral 16 n

/-- The value of a hexadecimal digit, in either case (R166). -/
def hexValue (c : Char) : Option Nat :=
  if '0' ≤ c ∧ c ≤ '9' then some (c.toNat - 48)
  else if 'A' ≤ c ∧ c ≤ 'F' then some (c.toNat - 55)
  else if 'a' ≤ c ∧ c ≤ 'f' then some (c.toNat - 87)
  else none

/-- The value of a digit of a base. -/
def digitValue (base : Nat) (c : Char) : Option Nat := (hexValue c).filter (fun d => decide (d < base))

/-- The value of a digit string read after `n`. -/
def valueFrom (base n : Nat) : Line → Option Nat
  | [] => some n
  | c :: rest =>
    match digitValue base c with
    | some d => valueFrom base (base * n + d) rest
    | none => none

/-- The value of a non-empty string of digits of a base. -/
def numeralValue (base : Nat) (h : Line) : Option Nat := if h.isEmpty then none else valueFrom base 0 h

/-- A hexadecimal numeral (R166): non-empty, digits only, value below 2^`WORD_BITS`. It denotes the word with that bit
pattern. -/
def hexNumeral (h : Line) : Option Word :=
  match numeralValue 16 h with
  | some n => if n < 2 ^ Config.wordBits then some (BitVec.ofNat Config.wordBits n) else none
  | none => none

/-- An opcode field (R51, R52): a hexadecimal numeral below 2^32, the range of `op` (R50). -/
def opcodeOfField (field : Line) : Option (BitVec 32) :=
  match numeralValue 16 field with
  | some n => if n < 2 ^ 32 then some (BitVec.ofNat 32 n) else none
  | none => none

/-- The level field of a slot: the level in decimal. For 0, 1, 2 it is the digit of R53; a slot of another level has no
line in the spec, and this is the line the reader gives back as that slot (log 5). -/
def levelField : Int → Line
  | .ofNat n => numeral 10 n
  | .negSucc n => '-' :: numeral 10 (n + 1)

/-- The level a field denotes. The loader takes every integer as it is, 0, 1, 2 or not (R233, D32): it is the engine that
rejects a level. -/
def levelOfField : Line → Option Int
  | '-' :: digits => (numeralValue 10 digits).map (fun n => -(n : Int))
  | digits => (numeralValue 10 digits).map (fun n => (n : Int))

/-- The code line of a slot (R51, R52): opcode, argument, level, separated by single spaces. -/
def codeLine (slot : Slot) : Line := hexU slot.op.toNat ++ ' ' :: hexU slot.arg.toNat ++ ' ' :: levelField slot.lvl

/-- The data line of an address and a word (R52, R54). -/
def dataLine (address value : Word) : Line := hexU address.toNat ++ ' ' :: hexU value.toNat

/-- The slot a code line denotes (R51 to R53), its opcode and level unchecked (R233); `none` for any other line (log 5). -/
def readCodeLine (line : Line) : Option Slot :=
  match tokens line with
  | [op, arg, lvl] =>
    match opcodeOfField op, hexNumeral arg, levelOfField lvl with
    | some o, some a, some l => some ⟨o, a, l⟩
    | _, _, _ => none
  | _ => none

/-- The address and word a data line denotes (R54, R169); `none` for any other line. -/
def readDataLine (line : Line) : Option (Word × Word) :=
  match tokens line with
  | [address, value] =>
    match hexNumeral address, hexNumeral value with
    | some a, some v => some (a, v)
    | _, _ => none
  | _ => none

/-- The literal line that ends the code section (R54). -/
def sentinel : Line := ['-', '1']

/-- A program as the loader takes it: the slots in order, and the data words in file order. -/
structure Image where
  code : List Slot
  data : List (Word × Word)
  deriving DecidableEq, Repr

/-- Read the data lines after the sentinel. -/
def readData : List Line → Option (List (Word × Word))
  | [] => some []
  | line :: rest =>
    match readDataLine line, readData rest with
    | some d, some ds => some (d :: ds)
    | _, _ => none

/-- The binary program file of an image (R54). -/
def Image.file (image : Image) : List Line :=
  image.code.map codeLine ++ sentinel :: image.data.map (fun d => dataLine d.1 d.2)

/-- Read a binary program file (R54): code lines, the sentinel as a whole line, data lines; `none` when a line has
another form or the sentinel is missing (log 5). -/
def readArtifact : List Line → Option Image
  | [] => none
  | line :: rest =>
    if line = sentinel then
      match readData rest with
      | some data => some ⟨[], data⟩
      | none => none
    else
      match readCodeLine line, readArtifact rest with
      | some slot, some image => some ⟨slot :: image.code, image.data⟩
      | _, _ => none

end Sys2Proof.Assembler
end

