-- ==== Sys2Proof/Machine/Assembler.lean ====
section
/-! DEFINITION. The assembler (46_assembler.md): a pure function on source lines with no state of its own (R27, R150). Its
phase 3 is the addressing-mode selector and the instruction encoder. -/

namespace Sys2Proof.Assembler

/-! ### The error report -/

/-- The error kinds of R153; a message is identified by its kind. -/
inductive ErrorKind where
  | startsWithWhiteSpace
  | illegalBlankLine
  | dataNotCapitalized
  | mnemonicNotUppercase
  | notAMnemonic
  | noArgumentsAllowed
  | tooManyArguments
  | notEnoughArguments
  | indirectNotAllowed
  | immediateNotAllowed
  | indirectNotHex
  | directNotHex
  | immediateNotHex
  | dataNotHex
  /-- reported at key 0 by the entry point only, never by the pure function (R177) -/
  | artifactUnopenable
  deriving DecidableEq, Repr

/-- The error report (R152): at most one message per line-number key, keys rising. -/
abbrev Report := List (Nat × ErrorKind)

/-- Report an error: it replaces a message already at the key (R152). -/
def Report.set : Report → Nat → ErrorKind → Report
  | [], key, kind => [(key, kind)]
  | (k, e) :: rest, key, kind =>
    if key < k then (key, kind) :: (k, e) :: rest
    else if key = k then (key, kind) :: rest
    else (k, e) :: Report.set rest key kind

/-- The message at a key. -/
def Report.get : Report → Nat → Option ErrorKind
  | [], _ => none
  | (k, e) :: rest, key => if k = key then some e else Report.get rest key

/-! ### Phase 1: line validation -/

/-- Does the line begin with a whitespace character (R154)? -/
def startsWithWhiteSpace : Line → Bool
  | [] => false
  | c :: _ => isWhitespace c

/-- R154, for the lines from number `i` on. -/
def checkStarts (i : Nat) : List Line → Report → Report
  | [], r => r
  | line :: rest, r =>
    checkStarts (i + 1) rest (if startsWithWhiteSpace line then r.set i .startsWithWhiteSpace else r)

/-- R155, for the lines from number `i` on: the first blank line answers for every non-blank line after it. -/
def checkBlanks (i : Nat) : List Line → Report → Report
  | [], r => r
  | line :: rest, r =>
    if line.isEmpty then if rest.any (fun l => !l.isEmpty) then r.set i .illegalBlankLine else r
    else checkBlanks (i + 1) rest r

/-! ### Phase 2: segmentation -/

/-- The exact-case marker. -/
def dataMarker : Line := ['D', 'A', 'T', 'A']

/-- Is the line the `DATA` marker, in any case and with any surrounding whitespace (R156, R157)? -/
def isMarker (line : Line) : Bool := upper (trim line) == dataMarker

/-- R156, for the lines from number `i` on. -/
def checkMarkers (i : Nat) : List Line → Report → Report
  | [], r => r
  | line :: rest, r =>
    checkMarkers (i + 1) rest
      (if isMarker line && trim line != dataMarker then r.set i .dataNotCapitalized else r)

/-- The code segment and the data segment. -/
structure Segments where
  code : List Line
  data : List Line
  deriving DecidableEq, Repr

/-- The forward scan of R157: a blank line before the marker ends all collection; after the marker every line is data. -/
def segments : List Line → Segments
  | [] => ⟨[], []⟩
  | line :: rest =>
    if line.isEmpty then ⟨[], []⟩
    else if isMarker line then ⟨[], rest⟩
    else ⟨line :: (segments rest).code, (segments rest).data⟩

/-! ### Phase 3: the selector and the encoder -/

/-- The upper-case name of a mnemonic (R159). -/
def mnemonicName : Mnemonic → Line
  | .nop  => ['N', 'O', 'P']
  | .lod  => ['L', 'O', 'D']
  | .sto  => ['S', 'T', 'O']
  | .add  => ['A', 'D', 'D']
  | .sub  => ['S', 'U', 'B']
  | .mul  => ['M', 'U', 'L']
  | .div  => ['D', 'I', 'V']
  | .and  => ['A', 'N', 'D']
  | .not  => ['N', 'O', 'T']
  | .cmpz => ['C', 'M', 'P', 'Z']
  | .cmpl => ['C', 'M', 'P', 'L']
  | .jump => ['J', 'U', 'M', 'P']
  | .jmpz => ['J', 'M', 'P', 'Z']
  | .halt => ['H', 'A', 'L', 'T']
  | .rot  => ['R', 'O', 'T']

/-- The mnemonic table (R159). -/
def allMnemonics : List Mnemonic :=
  [.nop, .lod, .sto, .add, .sub, .mul, .div, .and, .not, .cmpz, .cmpl, .jump, .jmpz, .halt, .rot]

/-- Exact, case-sensitive lookup (R160). -/
def lookupMnemonic (word : Line) : Option Mnemonic := allMnemonics.find? (fun m => mnemonicName m == word)

/-- The addressing modes (R162). -/
inductive Mode where
  | immediate
  | direct
  | indirect
  deriving DecidableEq, Repr

/-- The level a mode selects (R162). -/
def Mode.level : Mode → Int
  | .immediate => 0
  | .direct => 1
  | .indirect => 2

/-- The selector looks at the operand's prefix only (R162). -/
def selectMode : Line → Mode
  | '[' :: '[' :: _ => .indirect
  | '[' :: _ => .direct
  | _ => .immediate

/-- Cut one closing bracket off the end. -/
def stripClose (text : Line) : Option Line :=
  match text.reverse with
  | ']' :: rest => some rest.reverse
  | _ => none

/-- The numeral inside the brackets; `none` when the shape does not close as it opened (R165). -/
def operandText : Mode → Line → Option Line
  | .immediate, o => some o
  | .direct, o => stripClose (o.drop 1)
  | .indirect, o =>
    match stripClose (o.drop 2) with
    | some inner => stripClose inner
    | none => none

/-- The mode's "not a hex number" error (R165). -/
def Mode.notHex : Mode → ErrorKind
  | .immediate => .immediateNotHex
  | .direct => .directNotHex
  | .indirect => .indirectNotHex

/-- The capability check (R164): direct addressing is always permitted. -/
def capabilityError (m : Mnemonic) : Mode → Option ErrorKind
  | .immediate => if m.descriptor.permitsImmediate then none else some .immediateNotAllowed
  | .direct => none
  | .indirect => if m.descriptor.permitsIndirect then none else some .indirectNotAllowed

/-- The numeral of an operand token, if its shape and its digits are right (R165, R166). -/
def operandNumeral (mode : Mode) (o : Line) : Option Word :=
  match operandText mode o with
  | some h => hexNumeral h
  | none => none

/-- One operand: select the mode, check the capability, then the numeral, then encode (R162 to R167). -/
def encodeOperand (m : Mnemonic) (o : Line) : Except ErrorKind Slot :=
  match capabilityError m (selectMode o) with
  | some e => .error e
  | none =>
    match operandNumeral (selectMode o) o with
    | some arg => .ok ⟨m.opcode, arg, (selectMode o).level⟩
    | none => .error (selectMode o).notHex

/-- The arity check, and the encoding of what passes it (R161, R163). -/
def encodeArguments (m : Mnemonic) (args : List Line) : Except ErrorKind Slot :=
  match m.descriptor.arity, args with
  | .none, [] => .ok ⟨m.opcode, 0, 0⟩
  | .none, _ :: _ => .error .noArgumentsAllowed
  | .one, [] => .error .notEnoughArguments
  | .one, [o] => encodeOperand m o
  | .one, _ :: _ :: _ => .error .tooManyArguments

/-- One code line to its slot, or the line's first error (R158, R160). -/
def encodeLine (line : Line) : Except ErrorKind Slot :=
  match tokens line with
  | [] => .error .notAMnemonic
  | word :: args =>
    match lookupMnemonic word with
    | some m => encodeArguments m args
    | none => if (lookupMnemonic (upper word)).isSome then .error .mnemonicNotUppercase else .error .notAMnemonic

/-- What a phase leaves: the lines it encoded, and the report. -/
structure Phase where
  lines : List Line
  report : Report
  deriving DecidableEq, Repr

/-- Phase 3 over the code segment, from position `k` on (R158). -/
def encodeCode (k : Nat) : List Line → Report → Phase
  | [], r => ⟨[], r⟩
  | line :: rest, r =>
    match encodeLine line with
    | .ok slot =>
      let next := encodeCode (k + 1) rest r
      ⟨codeLine slot :: next.lines, next.report⟩
    | .error e => encodeCode (k + 1) rest (r.set k e)

/-! ### Phase 4: data lines -/

/-- Phase 4 over the data segment, the first line having the key `k` (R169). -/
def encodeData (k : Nat) : List Line → Report → Phase
  | [], r => ⟨[], r⟩
  | line :: rest, r =>
    if line.isEmpty then encodeData (k + 1) rest r
    else
      match readDataLine line with
      | some (address, value) =>
        let next := encodeData (k + 1) rest r
        ⟨dataLine address value :: next.lines, next.report⟩
      | none => encodeData (k + 1) rest (r.set k .dataNotHex)

/-! ### The whole -/

/-- What `assemble` returns (R150). -/
structure Assembly where
  code : List Line
  data : List Line
  report : Report
  deriving DecidableEq, Repr

/-- The five phases on top of a report already begun: none stops another (R174). -/
def assembleInto (sink : Report) (source : List Line) : Assembly :=
  let phase1 := checkBlanks 1 source (checkStarts 1 source sink)
  let phase2 := checkMarkers 1 source phase1
  let segs := segments source
  let phase3 := encodeCode 1 segs.code phase2
  let phase4 := encodeData (segs.code.length + 2) segs.data phase3.report
  ⟨phase3.lines, phase4.lines, phase4.report⟩

/-- `assemble(sourceLines)` (R150). -/
def assemble (source : List Line) : Assembly := assembleInto [] source

/-- Emission (R171): code lines, sentinel, data lines, only when the report is empty. -/
def Assembly.artifact (a : Assembly) : Option (List Line) :=
  if a.report.isEmpty then some (a.code ++ sentinel :: a.data) else none

/-- The result of the entry point: "sink is empty" (R172). -/
def Assembly.success (a : Assembly) : Bool := a.report.isEmpty

/-- What the entry point leaves: the sink, the artifact written, and its result. -/
structure Entry where
  sink : Report
  artifact : Option (List Line)
  success : Bool
  deriving DecidableEq, Repr

/-- The entry point (R172, R177): an unopenable input (`none`) or output is reported at key 0 and ends everything. -/
def assembleEntry (input : Option (List Line)) (outputOpens : Bool) (sink : Report) : Entry :=
  match input, outputOpens with
  | some source, true =>
    let a := assembleInto sink source
    ⟨a.report, a.artifact, a.success⟩
  | _, _ => ⟨sink.set 0 .artifactUnopenable, none, false⟩

end Sys2Proof.Assembler
end

