-- ==== Sys2Proof/Machine/Commands.lean ====
section
/-! DEFINITION. The host's side of the machine (R6, R86): the status a step returns (R83), the loader's writes (R233), and
every command of the interface as one function. -/

namespace Sys2Proof.Machine

/-- The five statuses of R83. -/
inductive Status where
  | ok
  | halted
  | fault (f : FaultRecord)
  | notRunning
  | terminated
  deriving DecidableEq, Repr

/-- The state a step leaves. Every step answers a next state; the other outcomes do not arise. -/
def stepState (s : State) : State :=
  match step s with
  | .next t => t
  | .fault _ => s
  | .refused _ => s

/-- The state with its fault latch emptied. -/
def State.unlatched (s : State) : State := { s with fault := none }

/-- The status `step` returns (R83). It is read off the step of the state with its fault latch emptied, so that the latch
shows what this step raised; no instruction reads the latch. -/
def stepStatus (s : State) : Status :=
  if s.terminated then .terminated
  else if s.running = false then .notRunning
  else
    let t := stepState s.unlatched
    match t.fault with
    | some f => .fault f
    | none => if t.running then .ok else .halted

/-- `run()` cut off after `n` steps: step while running (R85). -/
def runSteps : Nat → State → State
  | 0, s => s
  | n + 1, s => if s.running then runSteps n (stepState s) else s

/-- `run()` from `s` ends in `t` (R85): some number of steps leaves a machine that is not running. -/
def RunEnds (s t : State) : Prop := ∃ n, runSteps n s = t ∧ t.running = false

/-! ### The loader's writes -/

/-- A failure of the loader, reported to its own caller and not latched (R34, R233). -/
inductive LoadFailure where
  /-- a data address outside 0 to 511 -/
  | outOfRange (address : Int)
  /-- a slot past the end of the program or past `CODE_CAPACITY` (R15; log 6) -/
  | noSuchPosition (position : Nat)
  /-- a file with a malformed line or without the sentinel (R233; log 5) -/
  | malformedFile
  deriving DecidableEq, Repr

/-- A loader write: the state it leaves, and its failure if it has one. -/
structure Loaded where
  state : State
  failure : Option LoadFailure
  deriving DecidableEq, Repr

/-- A data write of the loader is `MemWrite(address, 1, value)` (R233). -/
def loadWord (address : Int) (value : Word) (s : State) : Loaded :=
  if s.terminated then ⟨s, none⟩
  else
    match memWrite address value s with
    | .ok t => ⟨t, none⟩
    | .error f => ⟨s, some (.outOfRange f.info)⟩

/-- A code write of the loader sets `Code[i]`, and `N` when it adds the next position (R233). The slot is not checked. -/
def loadSlot (i : Nat) (slot : Slot) (s : State) : Loaded :=
  if s.terminated then ⟨s, none⟩
  else if i < s.code.length then ⟨{ s with code := s.code.set i slot }, none⟩
  else if i = s.code.length ∧ i < s.config.codeCapacity then ⟨{ s with code := s.code ++ [slot] }, none⟩
  else ⟨s, some (.noSuchPosition i)⟩

/-- Data writes in file order, up to the first that fails (R233). -/
def loadWords : List (Word × Word) → State → Loaded
  | [], s => ⟨s, none⟩
  | (address, value) :: rest, s =>
    match loadWord address.toInt value s with
    | ⟨t, none⟩ => loadWords rest t
    | ⟨t, some f⟩ => ⟨t, some f⟩

/-- Load a whole program: its slots become positions 0 to N−1, then its data words are written (R232, R233). -/
def loadImage (image : Sys2Proof.Assembler.Image) (s : State) : Loaded :=
  if s.terminated then ⟨s, none⟩
  else if image.code.length ≤ s.config.codeCapacity then loadWords image.data { s with code := image.code }
  else ⟨s, some (.noSuchPosition s.config.codeCapacity)⟩

/-- Load a binary program file (R233): the image it holds, or a failure to the loader's caller with nothing written
(log 5). -/
def loadFile (file : List Sys2Proof.Assembler.Line) (s : State) : Loaded :=
  match Sys2Proof.Assembler.readArtifact file with
  | some image => loadImage image s
  | none => ⟨s, some .malformedFile⟩

/-! ### Commands -/

/-- The atomic host commands (R6). `run` is a sequence of steps and adds nothing (R85). -/
inductive Command where
  | reset (config : Config)
  | clear
  | start
  | step
  | halt
  | loadWord (address : Int) (value : Word)
  | loadSlot (position : Nat) (slot : Slot)
  | loadImage (image : Sys2Proof.Assembler.Image)
  | loadFile (file : List Sys2Proof.Assembler.Line)
  deriving DecidableEq, Repr

/-- What a command answers its caller. -/
inductive Response where
  | done
  | status (st : Status)
  | loadFailed (f : LoadFailure)
  deriving DecidableEq, Repr

/-- The answer of a loader write. -/
def Loaded.response (l : Loaded) : Response :=
  match l.failure with
  | some f => .loadFailed f
  | none => .done

/-- The state a command leaves (R86). -/
def perform : Command → State → State
  | .reset c, _ => State.construct c
  | .clear, s => clearCommand s
  | .start, s => startCommand s
  | .step, s => stepState s
  | .halt, s => haltCommand s
  | .loadWord a v, s => (Machine.loadWord a v s).state
  | .loadSlot i slot, s => (Machine.loadSlot i slot s).state
  | .loadImage image, s => (Machine.loadImage image s).state
  | .loadFile file, s => (Machine.loadFile file s).state

/-- What a command answers its caller (R83, R233). -/
def respond : Command → State → Response
  | .step, s => .status (stepStatus s)
  | .loadWord a v, s => (Machine.loadWord a v s).response
  | .loadSlot i slot, s => (Machine.loadSlot i slot s).response
  | .loadImage image, s => (Machine.loadImage image s).response
  | .loadFile file, s => (Machine.loadFile file s).response
  | .reset _, _ => .done
  | .clear, _ => .done
  | .start, _ => .done
  | .halt, _ => .done

/-- A command with a legal argument: a machine is constructed with a legal configuration (R15). -/
def Command.legal : Command → Bool
  | .reset c => c.valid
  | .clear | .start | .step | .halt | .loadWord _ _ | .loadSlot _ _ | .loadImage _ | .loadFile _ => true

/-- A sequence of commands, one after another (R86). -/
def performAll : List Command → State → State
  | [], s => s
  | c :: rest, s => performAll rest (perform c s)

end Sys2Proof.Machine
end

