-- ==== Sys2Proof/Safety.lean ====
section
/-! DEFINITION. The terms in which claims are stated: the invariant of the machine, and the spec's own notions of an
operand, a failed step and a rotation's control block, written from the rules and not from the operations. -/

namespace Sys2Proof.Machine

/-- The invariant every command keeps: memory is canonical (R13), the marker is an address (R14), a running machine has
neither a latched failure nor terminated (R17, R18, C6), only batch mode terminates (R17), and the program fits a legal
capacity (R15). -/
structure State.Inv (s : State) : Prop where
  mem_wf : s.mem.wf = true
  marker_lt : ∀ a ∈ s.lastChanged, a < 512
  running_unlatched : s.running = true → s.fault = none
  running_not_terminated : s.running = true → s.terminated = false
  terminated_batch : s.terminated = true → s.config.haltMode = .batch
  code_fits : s.code.length ≤ s.config.codeCapacity
  capacity_legal : s.config.codeCapacity ≤ 2147483647

/-- The word is a data address (R34). -/
abbrev InRange (w : Word) : Prop := 0 ≤ w.toInt ∧ w.toInt < 512

/-- `M[w]`, the cell a word addresses. -/
def State.cell (s : State) (w : Word) : Word := s.mem.read w.toInt.toNat

/-- What a failure leaves (R208): `running` false, the latch set, everything else as it was. -/
def State.failed (s : State) (cause : Cause) (info : Int) : State :=
  { s with running := false, fault := some ⟨cause, info⟩ }

/-- `v` is the value operand of `(arg, lvl)`: `arg`, `M[arg]` or `M[M[arg]]` at level 0, 1, 2, each address in range
(R75, R76, R78). -/
abbrev Operand (s : State) (lvl : Int) (arg v : Word) : Prop :=
  (lvl = 0 ∧ v = arg) ∨ (lvl = 1 ∧ InRange arg ∧ v = s.cell arg) ∨
    (lvl = 2 ∧ InRange arg ∧ InRange (s.cell arg) ∧ v = s.cell (s.cell arg))

/-- `a` is the first address out of range among the `lvl` data accesses an operand makes (R78, R207). -/
abbrev OperandFails (s : State) (lvl : Int) (arg : Word) (a : Int) : Prop :=
  ((lvl = 1 ∨ lvl = 2) ∧ ¬ InRange arg ∧ a = arg.toInt) ∨
    (lvl = 2 ∧ InRange arg ∧ ¬ InRange (s.cell arg) ∧ a = (s.cell arg).toInt)

/-- `v` is the address STO stores to: `arg` at level 1, `M[arg]` at level 2 (R92). -/
abbrev StoreAddress (s : State) (lvl : Int) (arg v : Word) : Prop :=
  (lvl = 1 ∧ v = arg) ∨ (lvl = 2 ∧ InRange arg ∧ v = s.cell arg)

/-- The running machine is about to perform this slot (R70, R71, R72). -/
abbrev Fetches (s : State) (slot : Slot) : Prop :=
  s.terminated = false ∧ s.running = true ∧ 0 ≤ s.pc.toInt ∧ s.code[s.pc.toInt.toNat]? = some slot

/-- The control cells at `arg` lie in memory and hold start, length and shift (R132). -/
abbrev ControlBlock (s : State) (arg : Word) (start length shift : Int) : Prop :=
  0 ≤ arg.toInt ∧ arg.toInt + 2 < 512 ∧ (s.mem.read arg.toInt.toNat).toInt = start ∧
    (s.mem.read (arg.toInt.toNat + 1)).toInt = length ∧ (s.mem.read (arg.toInt.toNat + 2)).toInt = shift

/-- The window is valid for control cells at address `v` (R133). -/
abbrev ValidWindow (v start length : Int) : Prop :=
  0 ≤ start ∧ 0 ≤ length ∧ start + length - 1 < 512 ∧ ¬ (1 ≤ length ∧ start ≤ v + 2 ∧ v ≤ start + length - 1)

/-- The slot `(op, arg, lvl)` decodes to `i`, and at levels 0, 1, 2 its code line is the opcode's hexadecimal text, the
argument's and the level, separated by single spaces (R51 to R53, R55). -/
abbrev EncodedAs (op : BitVec 32) (opText : List Char) (arg : Word) (lvl : Int) (i : Instr) : Prop :=
  decode ⟨op, arg, lvl⟩ = .ok i ∧
    ∀ d, ((lvl = 0 ∧ d = '0') ∨ (lvl = 1 ∧ d = '1') ∨ (lvl = 2 ∧ d = '2')) →
      Assembler.codeLine ⟨op, arg, lvl⟩ = opText ++ ' ' :: Assembler.hexU arg.toNat ++ [' ', d]

/-- Two machines that only a host can tell apart: everything a program can depend on is equal (R14, R18, R19, R24). -/
abbrev SameForPrograms (s t : State) : Prop :=
  s.acc = t.acc ∧ s.pc = t.pc ∧ s.mem = t.mem ∧ s.code = t.code ∧ s.running = t.running ∧
    s.terminated = t.terminated ∧ s.config = t.config

end Sys2Proof.Machine
end

