-- ==== Sys2Proof/Certificates/Slice0/Obligations.lean ====
section
/-! DEFINITION. The statements about the model, from the numbered rules of the spec. -/

open Sys2Proof Sys2Proof.Machine Sys2Proof.Assembler

/-! ### The step -/

/-- R70: a running machine performs the instruction its slot decodes to. -/
def Obligations.StepRunsTheDecodedInstruction : Prop :=
  ∀ (s : State) (slot : Slot) (i : Instr), Fetches s slot → decode slot = .ok i → step s = exec i s

/-- R71: a gated step changes nothing and says why, and only `start` sets the running flag. -/
def Obligations.GatedStepChangesNothing : Prop :=
  ∀ s : State,
    (s.terminated = true → step s = .next s ∧ stepStatus s = .terminated) ∧
    (s.terminated = false → s.running = false → step s = .next s ∧ stepStatus s = .notRunning) ∧
    (s.running = false → ∀ c : Command, c ≠ .start → (perform c s).running = false)

/-- R72: the slot read is `Code[pc]`; without one the step fails with FetchOutOfRange(pc). -/
def Obligations.FetchReadsTheSlotAtPc : Prop :=
  ∀ s : State,
    (∀ slot, 0 ≤ s.pc.toInt → s.code[s.pc.toInt.toNat]? = some slot → fetch s = .ok slot) ∧
    (s.terminated = false → s.running = true → (s.pc.toInt < 0 ∨ (s.code.length : Int) ≤ s.pc.toInt) →
      step s = .next (s.failed .fetchOutOfRange s.pc.toInt))

/-- R56, R201: an opcode outside the closed set fails before the level and the argument are looked at. -/
def Obligations.UnknownOpcodeFails : Prop :=
  ∀ (s : State) (slot : Slot), Fetches s slot →
    slot.op.toNat ∉ [0x0, 0x1, 0x2, 0x3, 0x4, 0x5, 0x6, 0x7, 0x8, 0x9, 0xA, 0xB, 0xC, 0xF, 0x14] →
      step s = .next (s.failed .unknownOpcode slot.op.toNat)

/-- R57: the allowed levels of each opcode. -/
def Obligations.AllowedLevelsOfEachOpcode : Prop :=
  ∀ (a : Word) (l : Int),
    ((Instr.nop a l).wellFormed = true ↔ l = 0) ∧ ((Instr.not a l).wellFormed = true ↔ l = 0) ∧
    ((Instr.halt a l).wellFormed = true ↔ l = 0) ∧ ((Instr.rot a l).wellFormed = true ↔ l = 0) ∧
    ((Instr.sto a l).wellFormed = true ↔ l = 1 ∨ l = 2) ∧
    ((Instr.cmpz a l).wellFormed = true ↔ l = 1) ∧ ((Instr.cmpl a l).wellFormed = true ↔ l = 1) ∧
    ((Instr.and a l).wellFormed = true ↔ l = 0 ∨ l = 1) ∧ ((Instr.jump a l).wellFormed = true ↔ l = 0 ∨ l = 1) ∧
    ((Instr.jmpz a l).wellFormed = true ↔ l = 0 ∨ l = 1) ∧
    ((Instr.lod a l).wellFormed = true ↔ l = 0 ∨ l = 1 ∨ l = 2) ∧
    ((Instr.add a l).wellFormed = true ↔ l = 0 ∨ l = 1 ∨ l = 2) ∧
    ((Instr.sub a l).wellFormed = true ↔ l = 0 ∨ l = 1 ∨ l = 2) ∧
    ((Instr.mul a l).wellFormed = true ↔ l = 0 ∨ l = 1 ∨ l = 2) ∧
    ((Instr.div a l).wellFormed = true ↔ l = 0 ∨ l = 1 ∨ l = 2)

/-- R74: a level outside the opcode's interval fails, in every state, with nothing else changed. -/
def Obligations.IllegalLevelFailsFirst : Prop :=
  ∀ (i : Instr) (s : State), (i.lvl < i.mnemonic.descriptor.min ∨ i.mnemonic.descriptor.max < i.lvl) →
    exec i s = .next (s.failed .invalidIndirection i.lvl)

/-- R70, R83: no step stops the machine outside the spec; each answers a next state. -/
def Obligations.EveryStepAnswersANextState : Prop := ∀ s : State, ∃ t, step s = .next t

/-- R208, R81: a step that raises changes `running` and the latch and nothing else, and returns the failure. -/
def Obligations.FailedStepChangesOnlyRunningAndLatch : Prop :=
  ∀ (s t : State) (f : FaultRecord), s.fault = none → step s = .next t → t.fault = some f →
    t = s.failed f.cause f.info ∧ s.running = true ∧ s.terminated = false ∧ stepStatus s = .fault f

/-- R83: what each status of a performed instruction means. -/
def Obligations.StatusSaysHowTheStepEnded : Prop :=
  ∀ (s t : State) (slot : Slot) (i : Instr), Fetches s slot → decode slot = .ok i → step s = .next t →
    (∀ f, stepStatus s = .fault f → t = s.failed f.cause f.info) ∧
    (stepStatus s = .halted ↔ ∃ a, i = .halt a 0) ∧
    (stepStatus s = .ok → t.running = true ∧ t.fault = s.fault ∧ t.terminated = false) ∧
    stepStatus s ≠ .notRunning ∧ stepStatus s ≠ .terminated

/-- The invariant is kept by every step, from every state that has it. -/
def Obligations.StepKeepsTheInvariant : Prop :=
  ∀ s t : State, s.Inv → step s = .next t → t.Inv

/-- The invariant is kept by every host command. -/
def Obligations.EveryCommandKeepsTheInvariant : Prop :=
  ∀ (c : Command) (s : State), c.legal = true → s.Inv → (perform c s).Inv

/-- The invariant holds after reset. -/
def Obligations.ResetMeetsTheInvariant : Prop := State.reset.Inv

/-- R44: no step writes the code store or the configuration. -/
def Obligations.StepLeavesCodeAndConfiguration : Prop :=
  ∀ s t : State, step s = .next t → t.code = s.code ∧ t.config = s.config

/-- R16, R17: a step never starts the machine, and terminates it only by HALT in batch mode. -/
def Obligations.StepNeverStartsAndRarelyTerminates : Prop :=
  ∀ s t : State, step s = .next t →
    (t.running = true → s.running = true) ∧
    (t.terminated = true → s.terminated = true ∨
      (s.config.haltMode = .batch ∧ ∃ a, Fetches s ⟨0xF, a, 0⟩))

/-- R14, R18, R24: the marker, the latch and the scratch register never influence what a program can see. -/
def Obligations.HostOnlyStateNeverReachesAProgram : Prop :=
  ∀ s s' t t' : State, SameForPrograms s s' → step s = .next t → step s' = .next t' → SameForPrograms t t'

/-- R11, R77: which instructions may write memory, the accumulator, the scratch register and the terminated flag. -/
def Obligations.EachInstructionWritesOnlyItsOwnState : Prop :=
  ∀ (i : Instr) (s t : State), exec i s = .next t →
    (i.mnemonic ∉ [.sto, .rot] → t.mem = s.mem ∧ t.lastChanged = s.lastChanged) ∧
    (i.mnemonic ∈ [.nop, .sto, .jump, .jmpz, .halt, .rot] → t.acc = s.acc) ∧
    (i.mnemonic ≠ .rot → t.scratch = s.scratch ∧ t.freeIndex = s.freeIndex) ∧
    (i.mnemonic ≠ .halt → t.terminated = s.terminated) ∧
    t.code = s.code ∧ t.config = s.config

/-- R12: the sequential advance never wraps. -/
def Obligations.PcIncrementNeverWraps : Prop :=
  ∀ (s : State) (slot : Slot), s.Inv → Fetches s slot → s.advance.pc.toInt = s.pc.toInt + 1

/-! ### Host commands -/

/-- R210: after a failure nothing but `clear` or reset lets the machine run again. -/
def Obligations.LatchedFailureNeverResumes : Prop :=
  ∀ (commands : List Command) (s : State) (f : FaultRecord), s.fault = some f → s.running = false →
    (∀ c ∈ commands, c ≠ .clear ∧ ∀ cfg, c ≠ .reset cfg) →
    (performAll commands s).running = false ∧ (performAll commands s).fault = some f ∧
      (performAll commands s).acc = s.acc ∧ (performAll commands s).pc = s.pc

/-- R17: once terminated, no command but reset changes any state. -/
def Obligations.TerminatedMachineIsFrozen : Prop :=
  ∀ (c : Command) (s : State), s.terminated = true → (∀ cfg, c ≠ .reset cfg) → perform c s = s

/-- R84: `start()`. -/
def Obligations.StartRunsUnlessRefused : Prop :=
  ∀ s : State,
    (s.terminated = false → s.fault = none → perform .start s = { s with running := true }) ∧
    ((s.terminated = true ∨ s.fault ≠ none) → perform .start s = s)

/-- R231, R40: `clear()`. -/
def Obligations.ClearIsTheExplicitReset : Prop :=
  ∀ s : State,
    (s.terminated = true → perform .clear s = s) ∧
    (s.terminated = false → ∃ t, perform .clear s = t ∧
      t = { s with acc := 0, pc := 0, mem := t.mem, lastChanged := none, running := false, fault := none } ∧
      (∀ a, a < 511 → t.mem.read a = 0) ∧
      t.mem.read 511 = if s.config.clearSkipsLast then s.mem.read 511 else 0)

/-- R82: the host's `halt()` in both modes, and its idempotence. -/
def Obligations.HaltCommandByMode : Prop :=
  ∀ s : State, s.terminated = false →
    (s.config.haltMode = .interactive → perform .halt s = { s with running := false }) ∧
    (s.config.haltMode = .batch → perform .halt s = { s with running := false, terminated := true }) ∧
    perform .halt (perform .halt s) = perform .halt s

/-- R230: what reset leaves, and that it alone leaves the terminated state. -/
def Obligations.ResetState : Prop :=
  (∀ (c : Config) (s : State), ∃ t, perform (.reset c) s = t ∧
    t.acc = 0 ∧ t.pc = 0 ∧ (∀ a, t.mem.read a = 0) ∧ t.lastChanged = none ∧ t.code = [] ∧ t.running = false ∧
    t.terminated = false ∧ t.fault = none ∧ t.config = c) ∧
  (∀ (c : Command) (s : State), s.terminated = true → (perform c s).terminated = false → ∃ cfg, c = .reset cfg) ∧
  (∃ (c : Config) (s : State), State.reset = perform (.reset c) s)

/-- R233: a loaded program is in place whatever its opcodes and levels are, the last data line for an address winning,
and nothing else changes; its file loads the same; a file that cannot be read fails with nothing written. -/
def Obligations.LoaderPutsTheProgramInPlace : Prop :=
  (∀ (image : Image) (s : State), s.terminated = false → image.code.length ≤ s.config.codeCapacity →
    (∀ d ∈ image.data, InRange d.1) →
    ∃ t, loadImage image s = ⟨t, none⟩ ∧ loadFile image.file s = ⟨t, none⟩ ∧
      t = { s with code := image.code, mem := t.mem, lastChanged := t.lastChanged } ∧
      ∀ a, t.mem.read a = image.data.foldl (fun v d => if d.1.toInt.toNat = a then d.2 else v) (s.mem.read a)) ∧
  (∀ (file : List Line) (s : State), readArtifact file = none → ∃ f, loadFile file s = ⟨s, some f⟩)

/-! ### Memory -/

/-- R32, R33: a read has no effect; a write sets one cell and the marker; neither does anything out of range. -/
def Obligations.MemoryAccessPrimitives : Prop :=
  ∀ (s : State) (a : Int) (v : Word),
    (0 ≤ a → a < 512 →
      memRead a s = .ok (s.mem.read a.toNat) ∧
      ∃ t, memWrite a v s = .ok t ∧ t = { s with mem := t.mem, lastChanged := some a.toNat } ∧
        t.mem.read a.toNat = v ∧ ∀ b, b ≠ a.toNat → t.mem.read b = s.mem.read b) ∧
    ((a < 0 ∨ 512 ≤ a) → memRead a s = .error ⟨.outOfRange, a⟩ ∧ memWrite a v s = .error ⟨.outOfRange, a⟩)

/-- Equal memories are equal data: two canonical memories that read alike are the same list. -/
def Obligations.CanonicalMemoriesThatReadAlikeAreEqual : Prop :=
  ∀ m m' : Memory, m.wf = true → m'.wf = true → (∀ a, a < 512 → m.read a = m'.read a) → m = m'

/-! ### NOP, LOD, STO -/

/-- R90. -/
def Obligations.NopOnlyAdvances : Prop :=
  ∀ (s : State) (arg : Word) (lvl : Int),
    EncodedAs 0x0 ['0'] arg lvl (.nop arg lvl) ∧
    (lvl = 0 → exec (.nop arg lvl) s = .next { s with pc := s.pc + 1 }) ∧
    (lvl ≠ 0 → exec (.nop arg lvl) s = .next (s.failed .invalidIndirection lvl))

/-- R91. -/
def Obligations.LodLoadsItsOperand : Prop :=
  ∀ (s : State) (arg : Word) (lvl : Int),
    EncodedAs 0x1 ['1'] arg lvl (.lod arg lvl) ∧
    (∀ v, Operand s lvl arg v → exec (.lod arg lvl) s = .next { s with acc := v, pc := s.pc + 1 }) ∧
    ((lvl < 0 ∨ 2 < lvl) → exec (.lod arg lvl) s = .next (s.failed .invalidIndirection lvl)) ∧
    (∀ a, OperandFails s lvl arg a → exec (.lod arg lvl) s = .next (s.failed .outOfRange a))

/-- R92. -/
def Obligations.StoStoresTheAccumulator : Prop :=
  ∀ (s : State) (arg : Word) (lvl : Int),
    EncodedAs 0x2 ['2'] arg lvl (.sto arg lvl) ∧
    (∀ v, StoreAddress s lvl arg v → InRange v →
      ∃ t, exec (.sto arg lvl) s = .next t ∧
        t = { s with mem := t.mem, lastChanged := some v.toInt.toNat, pc := s.pc + 1 } ∧
        t.mem.read v.toInt.toNat = s.acc ∧ ∀ b, b ≠ v.toInt.toNat → t.mem.read b = s.mem.read b) ∧
    ((lvl < 1 ∨ 2 < lvl) → exec (.sto arg lvl) s = .next (s.failed .invalidIndirection lvl)) ∧
    (∀ a, OperandFails s lvl arg a → exec (.sto arg lvl) s = .next (s.failed .outOfRange a))

/-! ### Arithmetic -/

/-- R100. -/
def Obligations.AddWrapsTheSum : Prop :=
  ∀ (s : State) (arg : Word) (lvl : Int),
    EncodedAs 0x3 ['3'] arg lvl (.add arg lvl) ∧
    (∀ v, Operand s lvl arg v → exec (.add arg lvl) s = .next { s with acc := s.acc + v, pc := s.pc + 1 }) ∧
    ((lvl < 0 ∨ 2 < lvl) → exec (.add arg lvl) s = .next (s.failed .invalidIndirection lvl)) ∧
    (∀ a, OperandFails s lvl arg a → exec (.add arg lvl) s = .next (s.failed .outOfRange a))

/-- R101. -/
def Obligations.SubWrapsTheDifference : Prop :=
  ∀ (s : State) (arg : Word) (lvl : Int),
    EncodedAs 0x4 ['4'] arg lvl (.sub arg lvl) ∧
    (∀ v, Operand s lvl arg v → exec (.sub arg lvl) s = .next { s with acc := s.acc - v, pc := s.pc + 1 }) ∧
    ((lvl < 0 ∨ 2 < lvl) → exec (.sub arg lvl) s = .next (s.failed .invalidIndirection lvl)) ∧
    (∀ a, OperandFails s lvl arg a → exec (.sub arg lvl) s = .next (s.failed .outOfRange a))

/-- R102. -/
def Obligations.MulWrapsTheProduct : Prop :=
  ∀ (s : State) (arg : Word) (lvl : Int),
    EncodedAs 0x5 ['5'] arg lvl (.mul arg lvl) ∧
    (∀ v, Operand s lvl arg v → exec (.mul arg lvl) s = .next { s with acc := s.acc * v, pc := s.pc + 1 }) ∧
    ((lvl < 0 ∨ 2 < lvl) → exec (.mul arg lvl) s = .next (s.failed .invalidIndirection lvl)) ∧
    (∀ a, OperandFails s lvl arg a → exec (.mul arg lvl) s = .next (s.failed .outOfRange a))

/-- R103. The quotient is the core library's signed division of words, which truncates toward zero and wraps. -/
def Obligations.DivTruncatesTowardZero : Prop :=
  ∀ (s : State) (arg : Word) (lvl : Int),
    EncodedAs 0x6 ['6'] arg lvl (.div arg lvl) ∧
    (∀ v, Operand s lvl arg v → v ≠ 0 →
      ∃ q, exec (.div arg lvl) s = .next { s with acc := q, pc := s.pc + 1 } ∧ q = s.acc.sdiv v ∧
        (¬ (s.acc.toInt = -2147483648 ∧ v.toInt = -1) → q.toInt = Int.tdiv s.acc.toInt v.toInt) ∧
        (s.acc.toInt = -2147483648 → v.toInt = -1 → q.toInt = -2147483648)) ∧
    (Operand s lvl arg 0 → exec (.div arg lvl) s = .next (s.failed .arithmeticError 0)) ∧
    ((lvl < 0 ∨ 2 < lvl) → exec (.div arg lvl) s = .next (s.failed .invalidIndirection lvl)) ∧
    (∀ a, OperandFails s lvl arg a → exec (.div arg lvl) s = .next (s.failed .outOfRange a))

/-! ### Logic and comparison -/

/-- R110. -/
def Obligations.AndIsLogical : Prop :=
  ∀ (s : State) (arg : Word) (lvl : Int),
    EncodedAs 0x7 ['7'] arg lvl (.and arg lvl) ∧
    (∀ v, lvl ≤ 1 → Operand s lvl arg v →
      exec (.and arg lvl) s = .next { s with acc := if v ≠ 0 ∧ s.acc ≠ 0 then 1 else 0, pc := s.pc + 1 }) ∧
    ((lvl < 0 ∨ 1 < lvl) → exec (.and arg lvl) s = .next (s.failed .invalidIndirection lvl)) ∧
    (lvl = 1 → ¬ InRange arg → exec (.and arg lvl) s = .next (s.failed .outOfRange arg.toInt))

/-- R111. -/
def Obligations.NotIsLogical : Prop :=
  ∀ (s : State) (arg : Word) (lvl : Int),
    EncodedAs 0x8 ['8'] arg lvl (.not arg lvl) ∧
    (lvl = 0 → exec (.not arg lvl) s = .next { s with acc := if s.acc = 0 then 1 else 0, pc := s.pc + 1 }) ∧
    (lvl ≠ 0 → exec (.not arg lvl) s = .next (s.failed .invalidIndirection lvl))

/-- R112. -/
def Obligations.CmpzTestsTheCellForZero : Prop :=
  ∀ (s : State) (arg : Word) (lvl : Int),
    EncodedAs 0x9 ['9'] arg lvl (.cmpz arg lvl) ∧
    (lvl = 1 → InRange arg →
      exec (.cmpz arg lvl) s = .next { s with acc := if s.cell arg = 0 then 1 else 0, pc := s.pc + 1 }) ∧
    (lvl ≠ 1 → exec (.cmpz arg lvl) s = .next (s.failed .invalidIndirection lvl)) ∧
    (lvl = 1 → ¬ InRange arg → exec (.cmpz arg lvl) s = .next (s.failed .outOfRange arg.toInt))

/-- R113: true exactly when bit 31 of the cell is 1. -/
def Obligations.CmplTestsTheSignOfTheCell : Prop :=
  ∀ (s : State) (arg : Word) (lvl : Int),
    EncodedAs 0xA ['A'] arg lvl (.cmpl arg lvl) ∧
    (lvl = 1 → InRange arg →
      exec (.cmpl arg lvl) s = .next { s with acc := if (s.cell arg).msb then 1 else 0, pc := s.pc + 1 }) ∧
    (lvl ≠ 1 → exec (.cmpl arg lvl) s = .next (s.failed .invalidIndirection lvl)) ∧
    (lvl = 1 → ¬ InRange arg → exec (.cmpl arg lvl) s = .next (s.failed .outOfRange arg.toInt))

/-! ### Control transfer -/

/-- R120: the target is not checked; the next step fails at fetch when no slot is there. -/
def Obligations.JumpStoresAnyTarget : Prop :=
  ∀ (s : State) (arg : Word) (lvl : Int),
    EncodedAs 0xB ['B'] arg lvl (.jump arg lvl) ∧
    (∀ v, lvl ≤ 1 → Operand s lvl arg v → exec (.jump arg lvl) s = .next { s with pc := v }) ∧
    ((lvl < 0 ∨ 1 < lvl) → exec (.jump arg lvl) s = .next (s.failed .invalidIndirection lvl)) ∧
    (lvl = 1 → ¬ InRange arg → exec (.jump arg lvl) s = .next (s.failed .outOfRange arg.toInt)) ∧
    (∀ v : Word, (v.toInt < 0 ∨ (s.code.length : Int) ≤ v.toInt) → s.terminated = false → s.running = true →
      step { s with pc := v } = .next (State.failed { s with pc := v } .fetchOutOfRange v.toInt))

/-- R121: the pointer cell is read, and can fail, even when the jump is not taken. -/
def Obligations.JmpzJumpsWhenTheAccumulatorIsZero : Prop :=
  ∀ (s : State) (arg : Word) (lvl : Int),
    EncodedAs 0xC ['C'] arg lvl (.jmpz arg lvl) ∧
    (∀ v, lvl ≤ 1 → Operand s lvl arg v →
      exec (.jmpz arg lvl) s = .next { s with pc := if s.acc = 0 then v else s.pc + 1 }) ∧
    ((lvl < 0 ∨ 1 < lvl) → exec (.jmpz arg lvl) s = .next (s.failed .invalidIndirection lvl)) ∧
    (lvl = 1 → ¬ InRange arg → exec (.jmpz arg lvl) s = .next (s.failed .outOfRange arg.toInt))

/-- R122: in interactive mode a `start` after the halt stands before the same HALT again. -/
def Obligations.HaltHaltsAndKeepsPc : Prop :=
  ∀ (s : State) (arg : Word) (lvl : Int),
    EncodedAs 0xF ['F'] arg lvl (.halt arg lvl) ∧
    (lvl = 0 → s.config.haltMode = .interactive → exec (.halt arg lvl) s = .next { s with running := false }) ∧
    (lvl = 0 → s.config.haltMode = .batch →
      exec (.halt arg lvl) s = .next { s with running := false, terminated := true }) ∧
    (lvl ≠ 0 → exec (.halt arg lvl) s = .next (s.failed .invalidIndirection lvl)) ∧
    (lvl = 0 → Fetches s ⟨0xF, arg, lvl⟩ → stepStatus s = .halted ∧
      (s.config.haltMode = .interactive → s.fault = none → perform .start (stepState s) = s))

/-! ### ROT -/

/-- R137, R139, R141: the net effect in fixed mode, and of a right rotation in either mode. -/
def Obligations.RotRotatesTheWindow : Prop :=
  ∀ (s : State) (arg : Word) (a l : Nat) (m : Int), ControlBlock s arg a l m → ValidWindow arg.toInt a l → 1 ≤ l →
    (m < 0 → s.config.rotMode = .fixed → ∃ t, exec (.rot arg 0) s = .next t ∧
      t = { s with mem := t.mem, lastChanged := some (a + l - 1), scratch := t.scratch, freeIndex := t.freeIndex,
                   pc := s.pc + 1 } ∧
      (∀ i, i < l → t.mem.read (a + i) = s.mem.read (a + (i + m.natAbs % l) % l)) ∧
      (∀ b, (b < a ∨ a + l ≤ b) → t.mem.read b = s.mem.read b) ∧
      (m.natAbs % l = 0 → ∀ b, t.mem.read b = s.mem.read b)) ∧
    (0 < m → ∃ t, exec (.rot arg 0) s = .next t ∧
      t = { s with mem := t.mem, lastChanged := some a, scratch := t.scratch, freeIndex := t.freeIndex,
                   pc := s.pc + 1 } ∧
      (∀ i, i < l → t.mem.read (a + i) = s.mem.read (a + (((i : Int) - (m.natAbs % l : Nat)) % (l : Int)).toNat)) ∧
      (∀ b, (b < a ∨ a + l ≤ b) → t.mem.read b = s.mem.read b) ∧
      (m.natAbs % l = 0 → ∀ b, t.mem.read b = s.mem.read b))

/-- R136, R138: a zero shift or an empty window writes nothing in memory, in either mode. -/
def Obligations.RotOfNothingOnlyAdvances : Prop :=
  ∀ (s : State) (arg : Word) (a l : Nat) (m : Int), ControlBlock s arg a l m → ValidWindow arg.toInt a l →
    (m = 0 ∨ l = 0) →
      ∃ t, exec (.rot arg 0) s = .next t ∧
        t = { s with scratch := t.scratch, freeIndex := t.freeIndex, pc := s.pc + 1 }

/-- R140: the compat left rotation smears the window upward into one cell more, or fails before any write. -/
def Obligations.RotCompatSmearsTheWindow : Prop :=
  ∀ (s : State) (arg : Word) (a l : Nat) (m : Int), ControlBlock s arg a l m → ValidWindow arg.toInt a l → 1 ≤ l →
    s.config.rotMode = .compat → m < 0 →
    (511 < a + l → exec (.rot arg 0) s = .next (s.failed .outOfRange (a + l : Nat))) ∧
    (a + l ≤ 511 → ∃ t, exec (.rot arg 0) s = .next t ∧
      t = { s with mem := t.mem, lastChanged := some (a + l), scratch := t.scratch, freeIndex := t.freeIndex,
                   pc := s.pc + 1 } ∧
      (∀ i, i < l → t.mem.read (a + i) = s.mem.read (a + min (i + m.natAbs) (l - 1))) ∧
      t.mem.read (a + l) = s.mem.read (a + min (m.natAbs - 1) (l - 1)) ∧
      (∀ b, (b < a ∨ a + l < b) → t.mem.read b = s.mem.read b))

/-- R132: control cells outside memory fail at the first address out of range, in reading order. -/
def Obligations.RotControlCellsMustLieInMemory : Prop :=
  ∀ (s : State) (arg : Word),
    ((arg.toInt < 0 ∨ 511 < arg.toInt) → exec (.rot arg 0) s = .next (s.failed .outOfRange arg.toInt)) ∧
    (arg.toInt = 511 → exec (.rot arg 0) s = .next (s.failed .outOfRange 512)) ∧
    (arg.toInt = 510 → exec (.rot arg 0) s = .next (s.failed .outOfRange 512))

/-- R133: an invalid or overlapping window fails with RangeError. -/
def Obligations.RotInvalidWindowFails : Prop :=
  ∀ (s : State) (arg : Word) (a l m : Int), ControlBlock s arg a l m →
    (a < 0 ∨ l < 0 ∨ 512 ≤ a + l - 1 ∨ (1 ≤ l ∧ a ≤ arg.toInt + 2 ∧ arg.toInt ≤ a + l - 1)) →
      exec (.rot arg 0) s = .next (s.failed .rangeError arg.toInt)

/-- R130: any level but 0 fails. -/
def Obligations.RotDecodesAndAllowsLevelZeroOnly : Prop :=
  ∀ (s : State) (arg : Word) (lvl : Int),
    EncodedAs 0x14 ['1', '4'] arg lvl (.rot arg lvl) ∧
    (lvl ≠ 0 → exec (.rot arg lvl) s = .next (s.failed .invalidIndirection lvl))

/-- R131, R134, R135, R140: what runs equals the spec's loops, in both modes and for every shift. -/
def Obligations.RotEqualsItsLoops : Prop :=
  ∀ (s : State) (arg : Word) (a l : Nat) (m : Int), ControlBlock s arg a l m → ValidWindow arg.toInt a l →
    (s.config.rotMode = .compat → m < 0 → 1 ≤ l → a + l ≤ 511) →
      ∃ t, exec (.rot arg 0) s = .next t ∧
        t.lastChanged = (rotateLoops ⟨a, l, m⟩ s).lastChanged ∧
        ∀ b, t.mem.read b = (rotateLoops ⟨a, l, m⟩ s).mem.read b

/-! ### Encoding -/

/-- R50, R55: encoding and decoding are inverse to each other. -/
def Obligations.DecodeInvertsEncode : Prop :=
  (∀ i : Instr, decode (encode i) = .ok i) ∧ (∀ (slot : Slot) (i : Instr), decode slot = .ok i → encode i = slot)

/-- R51 to R53, R233: every slot, its opcode and level legal or not, has a line that is read as that slot, and an
instruction's line is read as a slot that decodes to it. -/
def Obligations.CodeLineRoundTrip : Prop :=
  (∀ slot : Slot, readCodeLine (codeLine slot) = some slot ∧ codeLine slot ≠ sentinel) ∧
  (∀ i : Instr, ∃ slot, readCodeLine (codeLine (encode i)) = some slot ∧ decode slot = .ok i)

/-- Slots written out from R55 decode to the instructions they stand for. -/
def Obligations.KnownSlotsDecode : Prop :=
  decode ⟨0x1, 0x1A, 2⟩ = .ok (.lod 0x1A 2) ∧ decode ⟨0x6, 0x50, 1⟩ = .ok (.div 0x50 1) ∧
  decode ⟨0xA, 0x23, 1⟩ = .ok (.cmpl 0x23 1) ∧ decode ⟨0xC, 8, 0⟩ = .ok (.jmpz 8 0) ∧
  decode ⟨0x14, 0x30, 0⟩ = .ok (.rot 0x30 0) ∧ decode ⟨0xD, 0, 0⟩ = .error (.unknownOpcode 0xD)

/-- R52: `hexU` of a word's pattern has no leading zero, is upper case, and reads back as the word. -/
def Obligations.HexNumeralsRoundTrip : Prop :=
  ∀ w : Word,
    hexNumeral (hexU w.toNat) = some w ∧ (w ≠ 0 → (hexU w.toNat).head? ≠ some '0') ∧
      (∀ c ∈ hexU w.toNat, ('0' ≤ c ∧ c ≤ '9') ∨ ('A' ≤ c ∧ c ≤ 'F')) ∧ (hexU w.toNat).length ≤ 8

/-! ### The assembler -/

/-- R154, R156: a line that begins with whitespace, or a miscapitalised marker, always leaves an error at its number. -/
def Obligations.BadLinesAreReportedAtTheirNumber : Prop :=
  ∀ (before after : List Line) (line : Line),
    (startsWithWhiteSpace line = true ∨ (upper (trim line) = dataMarker ∧ trim line ≠ dataMarker)) →
      (assemble (before ++ line :: after)).report.get (before.length + 1) ≠ none

/-- R155: the first blank line answers for non-blank lines after it, and for nothing else. -/
def Obligations.FirstBlankLineAnswersForLaterLines : Prop :=
  ∀ before after : List Line, (∀ l ∈ before, l ≠ []) →
    ((∃ l ∈ after, l ≠ []) →
      (assemble (before ++ [] :: after)).report.get (before.length + 1) = some .illegalBlankLine) ∧
    ((∀ l ∈ after, l = []) → ∀ k, (assemble (before ++ [] :: after)).report.get k ≠ some .illegalBlankLine) ∧
    (∀ k, (assemble before).report.get k ≠ some .illegalBlankLine)

/-- R157: the code segment is the prefix before the first blank or marker line; all after a marker is data. -/
def Obligations.SegmentsSplitAtTheMarker : Prop :=
  ∀ source : List Line, ∃ rest, source = (segments source).code ++ rest ∧
    (∀ l ∈ (segments source).code, l ≠ [] ∧ upper (trim l) ≠ dataMarker) ∧
    ((rest = [] ∧ (segments source).data = []) ∨
     (∃ tail, rest = [] :: tail ∧ (segments source).data = []) ∨
     (∃ marker, marker ≠ [] ∧ upper (trim marker) = dataMarker ∧ rest = marker :: (segments source).data))

/-- R160, R161, R163: mnemonic lookup and arity of a code line. -/
def Obligations.MnemonicAndArityErrors : Prop :=
  ∀ line : Line,
    (tokens line = [] → encodeLine line = .error .notAMnemonic) ∧
    (∀ w args, tokens line = w :: args →
      ((∀ m, mnemonicName m ≠ w) → (∃ m, mnemonicName m = upper w) → encodeLine line = .error .mnemonicNotUppercase) ∧
      ((∀ m, mnemonicName m ≠ w) → (∀ m, mnemonicName m ≠ upper w) → encodeLine line = .error .notAMnemonic) ∧
      (∀ m, mnemonicName m = w → m ∈ [.nop, .not, .halt] → args ≠ [] →
        encodeLine line = .error .noArgumentsAllowed) ∧
      (∀ m, mnemonicName m = w → m ∈ [.nop, .not, .halt] → args = [] → encodeLine line = .ok ⟨m.opcode, 0, 0⟩) ∧
      (∀ m, mnemonicName m = w → m ∉ [.nop, .not, .halt] → args = [] →
        encodeLine line = .error .notEnoughArguments) ∧
      (∀ m, mnemonicName m = w → m ∉ [.nop, .not, .halt] → 1 < args.length →
        encodeLine line = .error .tooManyArguments) ∧
      (∀ m o, mnemonicName m = w → m ∉ [.nop, .not, .halt] → args = [o] → encodeLine line = encodeOperand m o))

/-- R162, R164 to R167: the addressing-mode selector and the encoder on one operand. -/
def Obligations.SelectorAndEncoder : Prop :=
  ∀ (m : Mnemonic) (h : Line), m ∉ [.nop, .not, .halt] → h.head? ≠ some '[' →
    (m ∈ [.sto, .cmpz, .cmpl] → encodeOperand m h = .error .immediateNotAllowed) ∧
    (m ∉ [.sto, .cmpz, .cmpl] →
      (∀ n, hexNumeral h = some n → encodeOperand m h = .ok ⟨m.opcode, n, 0⟩) ∧
      (hexNumeral h = none → encodeOperand m h = .error .immediateNotHex)) ∧
    (∀ n, hexNumeral h = some n → encodeOperand m ('[' :: h ++ [']']) = .ok ⟨m.opcode, n, 1⟩) ∧
    (hexNumeral h = none → encodeOperand m ('[' :: h ++ [']']) = .error .directNotHex) ∧
    (h.getLast? ≠ some ']' → encodeOperand m ('[' :: h) = .error .directNotHex) ∧
    (m ∉ [.lod, .sto, .add, .sub, .mul, .div] → encodeOperand m ('[' :: '[' :: h) = .error .indirectNotAllowed) ∧
    (m ∈ [.lod, .sto, .add, .sub, .mul, .div] →
      (∀ n, hexNumeral h = some n → encodeOperand m ('[' :: '[' :: h ++ [']', ']']) = .ok ⟨m.opcode, n, 2⟩) ∧
      (hexNumeral h = none → encodeOperand m ('[' :: '[' :: h ++ [']', ']']) = .error .indirectNotHex) ∧
      ((∀ x, h ≠ x ++ [']', ']']) → encodeOperand m ('[' :: '[' :: h) = .error .indirectNotHex))

/-- R235: every slot the encoder makes is legal for the engine, but for ROT with direct addressing. -/
def Obligations.EncodedSlotsAreLegalButRotDirect : Prop :=
  ∀ (line : Line) (slot : Slot), encodeLine line = .ok slot →
    ∃ i, decode slot = .ok i ∧ (i.wellFormed = true ∨ ∃ a, i = .rot a 1)

/-- R169: data lines, their error key, and their success. -/
def Obligations.DataLinesNeedTwoNumerals : Prop :=
  ∀ source : List Line, ∀ p line, (segments source).data[p]? = some line → line ≠ [] →
    (∀ a v x y, tokens line = [a, v] → hexNumeral a = some x → hexNumeral v = some y →
      hexU x.toNat ++ ' ' :: hexU y.toNat ∈ (assemble source).data) ∧
    ((∀ a v x y, tokens line = [a, v] → hexNumeral a = some x → hexNumeral v ≠ some y) →
      (assemble source).report.get ((segments source).code.length + 1 + (p + 1)) = some .dataNotHex)

/-- R54, R158, R167, R171: an assembled source has an artifact, which reads back as one slot per code line and the data
of its data lines. -/
def Obligations.AssembledProgramsReadBack : Prop :=
  ∀ source : List Line, (assemble source).report = [] →
    ∃ artifact image, (assemble source).artifact = some artifact ∧ readArtifact artifact = some image ∧
      image.code.map Except.ok = (segments source).code.map encodeLine ∧
      image.data.map some = ((segments source).data.filter (fun l => !l.isEmpty)).map readDataLine

/-- R171, R172: nothing is written unless no error was reported, and the result says which. -/
def Obligations.ArtifactOnlyWithoutErrors : Prop :=
  ∀ source : List Line,
    ((assemble source).report ≠ [] → (assemble source).artifact = none ∧ (assemble source).success = false) ∧
    ((assemble source).report = [] → (assemble source).success = true ∧
      (assemble source).artifact = some ((assemble source).code ++ ['-', '1'] :: (assemble source).data))
end

