-- ==== Sys2Proof/Laws/Text.lean ====
section
/-! SUPPORT. The laws of tokens and of hexadecimal numerals. -/

namespace Sys2Proof.Assembler

/-! ### Numerals -/

theorem hexValue_hexDigit : ∀ n, n < 16 → hexValue (hexDigit n) = some n := by decide

theorem hexDigit_upper : ∀ n, n < 16 →
    ('0' ≤ hexDigit n ∧ hexDigit n ≤ '9') ∨ ('A' ≤ hexDigit n ∧ hexDigit n ≤ 'F') := by decide

theorem hexDigit_not_space : ∀ n, n < 16 → isWhitespace (hexDigit n) = false := by decide

theorem hexDigit_not_zero : ∀ n, n < 16 → n ≠ 0 → hexDigit n ≠ '0' := by decide

theorem hexDigit_not_minus : ∀ n, n < 16 → hexDigit n ≠ '-' := by decide

theorem digitValue_hexDigit {base n : Nat} (hb : base ≤ 16) (h : n < base) : digitValue base (hexDigit n) = some n := by
  simp [digitValue, hexValue_hexDigit n (by omega), h]

/-- With fuel for every digit, the digits read back as the number. -/
theorem valueFrom_digitsFrom {base : Nat} (h2 : 2 ≤ base) (h16 : base ≤ 16) (fuel n : Nat) (rest : Line)
    (h : n < base ^ fuel) (hf : 1 ≤ fuel) : valueFrom base 0 (digitsFrom base fuel n rest) = valueFrom base n rest := by
  induction fuel generalizing n rest with
  | zero => omega
  | succ fuel ih =>
    unfold digitsFrom
    split
    · next hn => simp [valueFrom, digitValue_hexDigit h16 hn]
    · next hn =>
      have h1 : 1 ≤ fuel := by
        by_contra hc
        have : fuel = 0 := by omega
        subst this; simp at h; omega
      rw [ih (n / base) _ (by rw [Nat.div_lt_iff_lt_mul (by omega)]; rw [Nat.pow_succ] at h; exact h) h1]
      simp only [valueFrom, digitValue_hexDigit h16 (Nat.mod_lt n (by omega : 0 < base))]
      rw [Nat.div_add_mod]

theorem digitsFrom_head {base : Nat} (h2 : 2 ≤ base) (h16 : base ≤ 16) (fuel n : Nat) (rest : Line)
    (h : n < base ^ fuel) (hf : 1 ≤ fuel) :
    ∃ d more, d < 16 ∧ (n ≠ 0 → d ≠ 0) ∧ digitsFrom base fuel n rest = hexDigit d :: more := by
  induction fuel generalizing n rest with
  | zero => omega
  | succ fuel ih =>
    unfold digitsFrom
    split
    · next hn => exact ⟨n, rest, by omega, id, rfl⟩
    · next hn =>
      have h1 : 1 ≤ fuel := by
        by_contra hc
        have : fuel = 0 := by omega
        subst this; simp at h; omega
      obtain ⟨d, more, hd, h0, he⟩ := ih (n / base) (hexDigit (n % base) :: rest)
        (by rw [Nat.div_lt_iff_lt_mul (by omega)]; rw [Nat.pow_succ] at h; exact h) h1
      refine ⟨d, more, hd, fun _ => h0 ?_, he⟩
      have := Nat.div_pos (not_lt.1 hn) (by omega : 0 < base)
      omega

theorem mem_digitsFrom {base : Nat} (h2 : 2 ≤ base) (h16 : base ≤ 16) (fuel n : Nat) (rest : Line) (c : Char)
    (hc : c ∈ digitsFrom base fuel n rest) : c ∈ rest ∨ ∃ d, d < 16 ∧ c = hexDigit d := by
  induction fuel generalizing n rest with
  | zero => exact .inl hc
  | succ fuel ih =>
    unfold digitsFrom at hc
    split at hc
    · next hn =>
      rcases List.mem_cons.1 hc with rfl | hc
      · exact .inr ⟨n, by omega, rfl⟩
      · exact .inl hc
    · rcases ih _ _ hc with hc | hc
      · rcases List.mem_cons.1 hc with rfl | hc
        · exact .inr ⟨n % base, lt_of_lt_of_le (Nat.mod_lt n (by omega)) h16, rfl⟩
        · exact .inl hc
      · exact .inr hc

/-- A number below `base ^ k` has at most `k` digits, however much fuel there is. -/
theorem length_digitsFrom {base : Nat} (h2 : 2 ≤ base) (k fuel n : Nat) (rest : Line) (h : n < base ^ k) (hk : 1 ≤ k) :
    (digitsFrom base fuel n rest).length ≤ k + rest.length := by
  induction fuel generalizing n rest k with
  | zero => simp [digitsFrom]
  | succ fuel ih =>
    unfold digitsFrom
    split
    · simp; omega
    · next hn =>
      obtain ⟨j, rfl⟩ : ∃ j, k = j + 1 := ⟨k - 1, by omega⟩
      have h1 : 1 ≤ j := by
        by_contra hc
        have : j = 0 := by omega
        subst this; simp at h; omega
      have := ih j (n / base) (hexDigit (n % base) :: rest)
        (by rw [Nat.div_lt_iff_lt_mul (by omega)]; rw [Nat.pow_succ] at h; exact h) h1
      simp only [List.length_cons] at this; omega

/-- The fuel of `numeral` is enough. -/
theorem numeral_fuel {base : Nat} (h2 : 2 ≤ base) (n : Nat) : n < base ^ (Nat.log2 n + 1) :=
  lt_of_lt_of_le Nat.lt_log2_self (Nat.pow_le_pow_left h2 _)

theorem numeral_head {base : Nat} (h2 : 2 ≤ base) (h16 : base ≤ 16) (n : Nat) :
    ∃ d more, d < 16 ∧ (n ≠ 0 → d ≠ 0) ∧ numeral base n = hexDigit d :: more :=
  digitsFrom_head h2 h16 _ n [] (numeral_fuel h2 n) (by omega)

theorem numeral_ne_nil {base : Nat} (h2 : 2 ≤ base) (h16 : base ≤ 16) (n : Nat) : numeral base n ≠ [] := by
  obtain ⟨d, more, -, -, h⟩ := numeral_head h2 h16 n
  simp [h]

theorem mem_numeral {base : Nat} (h2 : 2 ≤ base) (h16 : base ≤ 16) {n : Nat} {c : Char} (h : c ∈ numeral base n) :
    ∃ d, d < 16 ∧ c = hexDigit d := by
  rcases mem_digitsFrom h2 h16 _ _ _ _ h with h | h
  · cases h
  · exact h

theorem numeral_not_space {base : Nat} (h2 : 2 ≤ base) (h16 : base ≤ 16) (n : Nat) :
    ∀ c ∈ numeral base n, isWhitespace c = false := by
  intro c hc
  obtain ⟨d, hd, rfl⟩ := mem_numeral h2 h16 hc
  exact hexDigit_not_space d hd

/-- A numeral reads back as its number. -/
theorem numeralValue_numeral {base : Nat} (h2 : 2 ≤ base) (h16 : base ≤ 16) (n : Nat) :
    numeralValue base (numeral base n) = some n := by
  have h := valueFrom_digitsFrom h2 h16 _ n [] (numeral_fuel h2 n) (by omega)
  have hn := numeral_ne_nil h2 h16 n
  rw [numeralValue, if_neg (by simpa using hn)]
  exact h

theorem hexU_head (n : Nat) : ∃ d more, d < 16 ∧ (n ≠ 0 → d ≠ 0) ∧ hexU n = hexDigit d :: more :=
  numeral_head (by omega) (by omega) n

theorem mem_hexU {n : Nat} {c : Char} (h : c ∈ hexU n) : ∃ d, d < 16 ∧ c = hexDigit d :=
  mem_numeral (by omega) (by omega) h

theorem hexU_not_space (n : Nat) : ∀ c ∈ hexU n, isWhitespace c = false := numeral_not_space (by omega) (by omega) n

theorem hexU_ne_nil (n : Nat) : hexU n ≠ [] := numeral_ne_nil (by omega) (by omega) n

/-- A numeral for a word has at most eight digits. -/
theorem length_hexU_word (w : Word) : (hexU w.toNat).length ≤ 8 :=
  length_digitsFrom (by omega) 8 _ _ [] (lt_of_lt_of_eq w.isLt (by decide)) (by omega)

theorem hexNumeral_hexU (w : Word) : hexNumeral (hexU w.toNat) = some w := by
  have h : numeralValue 16 (hexU w.toNat) = some w.toNat := numeralValue_numeral (by omega) (by omega) _
  have hw : w.toNat < 2 ^ Config.wordBits := w.isLt
  simp only [hexNumeral, h, if_pos hw, BitVec.ofNat_toNat, BitVec.setWidth_eq]

theorem opcodeOfField_hexU (op : BitVec 32) : opcodeOfField (hexU op.toNat) = some op := by
  have h : numeralValue 16 (hexU op.toNat) = some op.toNat := numeralValue_numeral (by omega) (by omega) _
  simp only [opcodeOfField, h, if_pos op.isLt, BitVec.ofNat_toNat, BitVec.setWidth_eq]

/-! ### Tokens -/

theorem tokensFrom_word (word x rest : Line) (hx : ∀ c ∈ x, isWhitespace c = false) :
    tokensFrom word (x ++ rest) = tokensFrom (word ++ x) rest := by
  induction x generalizing word with
  | nil => simp
  | cons c x ih =>
    have hc : isWhitespace c = false := hx c (by simp)
    simp only [List.cons_append, tokensFrom, hc, Bool.false_eq_true, ↓reduceIte]
    rw [ih _ fun c hc => hx c (by simp [hc])]
    simp

theorem tokensFrom_space (word rest : Line) (h : word ≠ []) :
    tokensFrom word (' ' :: rest) = word :: tokensFrom [] rest := by
  have hs : isWhitespace ' ' = true := by decide
  simp [tokensFrom, hs, h]

theorem tokensFrom_end (word : Line) (h : word ≠ []) : tokensFrom word [] = [word] := by
  simp [tokensFrom, h]

/-- Two words with one space between them. -/
theorem tokens_pair (x y : Line) (hx : ∀ c ∈ x, isWhitespace c = false) (hy : ∀ c ∈ y, isWhitespace c = false)
    (hx0 : x ≠ []) (hy0 : y ≠ []) : tokens (x ++ ' ' :: y) = [x, y] := by
  have h := tokensFrom_word [] y [] hy
  rw [List.append_nil, List.nil_append] at h
  rw [tokens, tokensFrom_word _ _ _ hx, List.nil_append, tokensFrom_space _ _ hx0, h, tokensFrom_end _ hy0]

/-- Three words with one space between each two. -/
theorem tokens_triple (x y z : Line) (hx : ∀ c ∈ x, isWhitespace c = false) (hy : ∀ c ∈ y, isWhitespace c = false)
    (hz : ∀ c ∈ z, isWhitespace c = false) (hx0 : x ≠ []) (hy0 : y ≠ []) (hz0 : z ≠ []) :
    tokens (x ++ ' ' :: (y ++ ' ' :: z)) = [x, y, z] := by
  have h := tokens_pair y z hy hz hy0 hz0
  rw [tokens] at h
  rw [tokens, tokensFrom_word _ _ _ hx, List.nil_append, tokensFrom_space _ _ hx0, h]

/-! ### Lines -/

theorem levelField_not_space (lvl : Int) : ∀ c ∈ levelField lvl, isWhitespace c = false := by
  cases lvl with
  | ofNat n => exact numeral_not_space (by omega) (by omega) n
  | negSucc n =>
    intro c hc
    rcases List.mem_cons.1 hc with rfl | hc
    · decide
    · exact numeral_not_space (by omega) (by omega) _ c hc

theorem levelField_ne_nil (lvl : Int) : levelField lvl ≠ [] := by
  cases lvl with
  | ofNat n => exact numeral_ne_nil (by omega) (by omega) n
  | negSucc n => simp [levelField]

/-- The field of every level reads back as that level. -/
theorem levelOfField_levelField (lvl : Int) : levelOfField (levelField lvl) = some lvl := by
  cases lvl with
  | ofNat n =>
    obtain ⟨d, more, hd, -, he⟩ := numeral_head (base := 10) (by omega) (by omega) n
    have hv := numeralValue_numeral (base := 10) (by omega) (by omega) n
    simp only [levelField]
    unfold levelOfField
    split
    · next heq =>
      rw [he] at heq
      exact absurd (List.cons.inj heq).1 (hexDigit_not_minus d hd)
    · rw [hv]; rfl
  | negSucc n =>
    have hv := numeralValue_numeral (base := 10) (by omega) (by omega) (n + 1)
    simp only [levelField, levelOfField, hv]
    rfl

/-- The code line of a slot reads back as it, whatever its opcode and level. -/
theorem readCodeLine_codeLine (slot : Slot) : readCodeLine (codeLine slot) = some slot := by
  have h : tokens (codeLine slot) = [hexU slot.op.toNat, hexU slot.arg.toNat, levelField slot.lvl] := by
    rw [← tokens_triple _ _ _ (hexU_not_space _) (hexU_not_space _) (levelField_not_space slot.lvl) (hexU_ne_nil _)
      (hexU_ne_nil _) (levelField_ne_nil slot.lvl)]
    simp [codeLine]
  simp only [readCodeLine, h, opcodeOfField_hexU, hexNumeral_hexU, levelOfField_levelField]

/-- A code line is never the sentinel. -/
theorem codeLine_ne_sentinel (slot : Slot) : codeLine slot ≠ sentinel := by
  obtain ⟨x, more, hx, -, he⟩ := hexU_head slot.op.toNat
  intro h
  rw [codeLine, he] at h
  exact hexDigit_not_minus x hx (List.cons.inj h).1

theorem readDataLine_dataLine (a v : Word) : readDataLine (dataLine a v) = some (a, v) := by
  have h := tokens_pair (hexU a.toNat) (hexU v.toNat) (hexU_not_space _) (hexU_not_space _) (hexU_ne_nil _)
    (hexU_ne_nil _)
  simp [readDataLine, dataLine, h, hexNumeral_hexU]

theorem readData_dataLines (data : List (Word × Word)) :
    readData (data.map fun d => dataLine d.1 d.2) = some data := by
  induction data with
  | nil => rfl
  | cons d rest ih => simp only [List.map_cons, readData, readDataLine_dataLine, ih]

/-- The file of every image reads back as it. -/
theorem readArtifact_file (image : Image) : readArtifact image.file = some image := by
  obtain ⟨code, data⟩ := image
  induction code with
  | nil => simp [Image.file, readArtifact, readData_dataLines]
  | cons slot rest ih =>
    simp only [Image.file] at ih
    simp only [Image.file, List.map_cons, List.cons_append, readArtifact, if_neg (codeLine_ne_sentinel slot),
      readCodeLine_codeLine, ih]

end Sys2Proof.Assembler
end

