-- ==== Sys2Proof/Laws/Assembler.lean ====
section
/-! SUPPORT. The laws of the error report and of each phase of the assembler: which keys a phase can set. -/

namespace Sys2Proof.Assembler

/-! ### The report -/

theorem Report.get_set (r : Report) (k k' : Nat) (e : ErrorKind) :
    (r.set k e).get k' = if k = k' then some e else r.get k' := by
  induction r with
  | nil => simp [Report.set, Report.get]
  | cons entry rest ih =>
    obtain ⟨j, x⟩ := entry
    unfold Report.set
    split
    · simp [Report.get]
    · split
      · next h1 h2 =>
        subst h2
        simp only [Report.get]
        split <;> rfl
      · next h1 h2 =>
        simp only [Report.get, ih]
        by_cases hj : j = k'
        · subst hj
          simp [h2]
        · simp [hj]

theorem Report.set_ne_nil (r : Report) (k : Nat) (e : ErrorKind) : r.set k e ≠ [] := by
  cases r with
  | nil => simp [Report.set]
  | cons entry rest =>
    obtain ⟨j, x⟩ := entry
    unfold Report.set
    split
    · simp
    · split <;> simp

/-- A report is at most as far as another when it has no error the other lacks a key for. -/
theorem Report.get_nil (k : Nat) : Report.get [] k = none := rfl

/-! ### Each phase keeps the keys it does not set -/

theorem get_checkStarts (lines : List Line) (i : Nat) (r : Report) (k : Nat) :
    (checkStarts i lines r).get k =
      if i ≤ k ∧ (lines[k - i]?).any startsWithWhiteSpace then some .startsWithWhiteSpace else r.get k := by
  induction lines generalizing i r with
  | nil => simp [checkStarts]
  | cons line rest ih =>
    rw [checkStarts, ih]
    rcases Nat.lt_trichotomy k i with h | h | h
    · have h1 : ¬ (i + 1 ≤ k) := by omega
      have h2 : ¬ (i ≤ k) := by omega
      simp only [h1, h2, false_and, ↓reduceIte]
      split
      · rw [Report.get_set, if_neg (by omega)]
      · rfl
    · subst h
      have h1 : ¬ (k + 1 ≤ k) := by omega
      simp only [h1, false_and, ↓reduceIte, le_refl, true_and, Nat.sub_self, List.getElem?_cons_zero, Option.any_some]
      split
      · rw [Report.get_set, if_pos rfl]
      · rfl
    · have h1 : i + 1 ≤ k := by omega
      have h2 : i ≤ k := by omega
      have h3 : k - i = (k - (i + 1)) + 1 := by omega
      simp only [h1, h2, true_and, h3, List.getElem?_cons_succ]
      split
      · rfl
      · split
        · rw [Report.get_set, if_neg (by omega)]
        · rfl

/-- The marker check at its line. -/
def miscapitalised (line : Line) : Bool := isMarker line && trim line != dataMarker

theorem get_checkMarkers (lines : List Line) (i : Nat) (r : Report) (k : Nat) :
    (checkMarkers i lines r).get k =
      if i ≤ k ∧ (lines[k - i]?).any miscapitalised then some .dataNotCapitalized else r.get k := by
  induction lines generalizing i r with
  | nil => simp [checkMarkers]
  | cons line rest ih =>
    have hm : (isMarker line && trim line != dataMarker) = miscapitalised line := rfl
    rw [checkMarkers, ih, hm]
    rcases Nat.lt_trichotomy k i with h | h | h
    · have h1 : ¬ (i + 1 ≤ k) := by omega
      have h2 : ¬ (i ≤ k) := by omega
      simp only [h1, h2, false_and, ↓reduceIte]
      split
      · rw [Report.get_set, if_neg (by omega)]
      · rfl
    · subst h
      have h1 : ¬ (k + 1 ≤ k) := by omega
      simp only [h1, false_and, ↓reduceIte, le_refl, true_and, Nat.sub_self, List.getElem?_cons_zero, Option.any_some]
      split
      · rw [Report.get_set, if_pos rfl]
      · rfl
    · have h1 : i + 1 ≤ k := by omega
      have h2 : i ≤ k := by omega
      have h3 : k - i = (k - (i + 1)) + 1 := by omega
      simp only [h1, h2, true_and, h3, List.getElem?_cons_succ]
      split
      · rfl
      · split
        · rw [Report.get_set, if_neg (by omega)]
        · rfl

/-- The blank-line check sets at most one key. -/
theorem get_checkBlanks (before after : List Line) (i : Nat) (r : Report) (k : Nat) (h : ∀ l ∈ before, l ≠ []) :
    (checkBlanks i (before ++ [] :: after) r).get k =
      if k = i + before.length ∧ after.any (fun l => !l.isEmpty) then some .illegalBlankLine else r.get k := by
  induction before generalizing i with
  | nil =>
    simp only [List.nil_append, checkBlanks, List.isEmpty_nil, ↓reduceIte, List.length_nil, Nat.add_zero]
    by_cases ha : after.any (fun l => !l.isEmpty) = true
    · simp only [ha, ↓reduceIte, and_true, Report.get_set]
      by_cases hk : k = i
      · rw [if_pos hk.symm, if_pos hk]
      · rw [if_neg (Ne.symm hk), if_neg hk]
    · simp only [ha, Bool.false_eq_true, and_false, ↓reduceIte]
  | cons line rest ih =>
    have hl : line.isEmpty = false := by
      have := h line (by simp)
      cases line <;> simp_all
    simp only [List.cons_append, checkBlanks, hl, Bool.false_eq_true, ↓reduceIte, List.length_cons]
    rw [ih (i + 1) fun l hl => h l (by simp [hl])]
    have : i + 1 + rest.length = i + (rest.length + 1) := by omega
    rw [this]

theorem checkBlanks_no_blank (lines : List Line) (i : Nat) (r : Report) (h : ∀ l ∈ lines, l ≠ []) :
    checkBlanks i lines r = r := by
  induction lines generalizing i with
  | nil => rfl
  | cons line rest ih =>
    have hl : line.isEmpty = false := by
      have := h line (by simp)
      cases line <;> simp_all
    simp only [checkBlanks, hl, Bool.false_eq_true, ↓reduceIte]
    exact ih _ fun l hl => h l (by simp [hl])

/-- The error a code line gives. -/
def lineError (line : Line) : Option ErrorKind :=
  match encodeLine line with
  | .ok _ => none
  | .error e => some e

theorem get_encodeCode (lines : List Line) (i : Nat) (r : Report) (k : Nat) :
    (encodeCode i lines r).report.get k =
      ((if i ≤ k then (lines[k - i]?).bind lineError else none).orElse fun _ => r.get k) := by
  induction lines generalizing i r with
  | nil => simp [encodeCode]
  | cons line rest ih =>
    have step : (encodeCode i (line :: rest) r).report =
        (encodeCode (i + 1) rest (match lineError line with | none => r | some e => r.set i e)).report := by
      unfold lineError
      rw [encodeCode]
      cases encodeLine line <;> rfl
    rw [step, ih]
    rcases Nat.lt_trichotomy k i with h | h | h
    · have h1 : ¬ (i + 1 ≤ k) := by omega
      have h2 : ¬ (i ≤ k) := by omega
      simp only [h1, h2, ↓reduceIte, Option.orElse_none]
      cases lineError line with
      | none => rfl
      | some e => simp only [Report.get_set]; rw [if_neg (by omega)]
    · subst h
      have h1 : ¬ (k + 1 ≤ k) := by omega
      simp only [h1, ↓reduceIte, le_refl, Nat.sub_self, List.getElem?_cons_zero, Option.bind_some, Option.orElse_none]
      cases lineError line with
      | none => rfl
      | some e => simp [Report.get_set]
    · have h1 : i + 1 ≤ k := by omega
      have h2 : i ≤ k := by omega
      have h3 : k - i = (k - (i + 1)) + 1 := by omega
      simp only [h1, h2, ↓reduceIte, h3, List.getElem?_cons_succ]
      cases lineError line with
      | none => rfl
      | some e => simp only [Report.get_set]; rw [if_neg (by omega)]

/-- Does a data line fail (R169)? Blank lines do not. -/
def badData (line : Line) : Bool := !line.isEmpty && (readDataLine line).isNone

theorem get_encodeData (lines : List Line) (i : Nat) (r : Report) (k : Nat) :
    (encodeData i lines r).report.get k =
      if i ≤ k ∧ (lines[k - i]?).any badData then some .dataNotHex else r.get k := by
  induction lines generalizing i r with
  | nil => simp [encodeData]
  | cons line rest ih =>
    have step : (encodeData i (line :: rest) r).report =
        (encodeData (i + 1) rest (if badData line then r.set i .dataNotHex else r)).report := by
      unfold badData
      rw [encodeData]
      by_cases he : line.isEmpty = true
      · simp [he]
      · simp only [he, Bool.not_false, Bool.true_and, Bool.false_eq_true, ↓reduceIte]
        cases readDataLine line <;> rfl
    rw [step, ih]
    rcases Nat.lt_trichotomy k i with h | h | h
    · have h1 : ¬ (i + 1 ≤ k) := by omega
      have h2 : ¬ (i ≤ k) := by omega
      simp only [h1, h2, false_and, ↓reduceIte]
      split
      · rw [Report.get_set, if_neg (by omega)]
      · rfl
    · subst h
      have h1 : ¬ (k + 1 ≤ k) := by omega
      simp only [h1, false_and, ↓reduceIte, le_refl, true_and, Nat.sub_self, List.getElem?_cons_zero, Option.any_some]
      split
      · rw [Report.get_set, if_pos rfl]
      · rfl
    · have h1 : i + 1 ≤ k := by omega
      have h2 : i ≤ k := by omega
      have h3 : k - i = (k - (i + 1)) + 1 := by omega
      simp only [h1, h2, true_and, h3, List.getElem?_cons_succ]
      split
      · rfl
      · split
        · rw [Report.get_set, if_neg (by omega)]
        · rfl

/-! ### A phase that reports nothing -/

theorem checkStarts_nil {lines : List Line} {i : Nat} {r : Report} (h : checkStarts i lines r = []) : r = [] := by
  induction lines generalizing i r with
  | nil => exact h
  | cons line rest ih =>
    have := ih h
    split at this
    · exact absurd this (Report.set_ne_nil _ _ _)
    · exact this

theorem checkBlanks_nil {lines : List Line} {i : Nat} {r : Report} (h : checkBlanks i lines r = []) : r = [] := by
  induction lines generalizing i with
  | nil => exact h
  | cons line rest ih =>
    unfold checkBlanks at h
    split at h
    · split at h
      · exact absurd h (Report.set_ne_nil _ _ _)
      · exact h
    · exact ih h

theorem checkMarkers_nil {lines : List Line} {i : Nat} {r : Report} (h : checkMarkers i lines r = []) : r = [] := by
  induction lines generalizing i r with
  | nil => exact h
  | cons line rest ih =>
    have := ih h
    split at this
    · exact absurd this (Report.set_ne_nil _ _ _)
    · exact this

/-- Phase 3 that reports nothing encoded every line. -/
theorem encodeCode_nil {lines : List Line} {i : Nat} {r : Report} (h : (encodeCode i lines r).report = []) :
    r = [] ∧ ∃ slots : List Slot, slots.map Except.ok = lines.map encodeLine ∧
      (encodeCode i lines r).lines = slots.map codeLine := by
  induction lines generalizing i r with
  | nil => exact ⟨h, [], rfl, rfl⟩
  | cons line rest ih =>
    rw [encodeCode] at h ⊢
    cases he : encodeLine line with
    | ok slot =>
      rw [he] at h
      obtain ⟨hr, slots, h1, h2⟩ := ih h
      exact ⟨hr, slot :: slots, by simp [he, h1], by simp [h2]⟩
    | error e =>
      rw [he] at h
      exact absurd (ih h).1 (Report.set_ne_nil _ _ _)

/-- Phase 4 that reports nothing encoded every line that is not blank. -/
theorem encodeData_nil {lines : List Line} {i : Nat} {r : Report} (h : (encodeData i lines r).report = []) :
    r = [] ∧ ∃ data : List (Word × Word),
      data.map some = (lines.filter fun l => !l.isEmpty).map readDataLine ∧
      (encodeData i lines r).lines = data.map fun d => dataLine d.1 d.2 := by
  induction lines generalizing i r with
  | nil => exact ⟨h, [], rfl, rfl⟩
  | cons line rest ih =>
    rw [encodeData] at h ⊢
    by_cases hb : line.isEmpty = true
    · simp only [hb, ↓reduceIte] at h ⊢
      obtain ⟨hr, data, h1, h2⟩ := ih h
      exact ⟨hr, data, by simp [hb, h1], h2⟩
    · simp only [hb, Bool.false_eq_true, ↓reduceIte] at h ⊢
      cases hd : readDataLine line with
      | some d =>
        obtain ⟨a, v⟩ := d
        rw [hd] at h
        obtain ⟨hr, data, h1, h2⟩ := ih h
        exact ⟨hr, (a, v) :: data, by simp [hb, hd, h1], by simp [h2]⟩
      | none =>
        rw [hd] at h
        exact absurd (ih h).1 (Report.set_ne_nil _ _ _)

/-- A good data line appears in the output of phase 4. -/
theorem mem_encodeData {lines : List Line} {i : Nat} {r : Report} {line : Line} {a v : Word} (hm : line ∈ lines)
    (hb : line ≠ []) (hd : readDataLine line = some (a, v)) : dataLine a v ∈ (encodeData i lines r).lines := by
  induction lines generalizing i r with
  | nil => cases hm
  | cons l rest ih =>
    rw [encodeData]
    rcases List.mem_cons.1 hm with rfl | hm
    · have : line.isEmpty = false := by cases line <;> simp_all
      simp [this, hd]
    · split
      · exact ih hm
      · split
        · exact List.mem_cons_of_mem _ (ih hm)
        · exact ih hm

/-! ### Segmentation -/

/-- The code segment and the rest of the source. -/
theorem segments_split (source : List Line) : ∃ rest, source = (segments source).code ++ rest ∧
    (∀ l ∈ (segments source).code, l ≠ [] ∧ isMarker l = false) ∧
    ((rest = [] ∧ (segments source).data = []) ∨ (∃ tail, rest = [] :: tail ∧ (segments source).data = []) ∨
     (∃ marker, marker ≠ [] ∧ isMarker marker = true ∧ rest = marker :: (segments source).data)) := by
  induction source with
  | nil => exact ⟨[], rfl, by simp [segments], .inl ⟨rfl, rfl⟩⟩
  | cons line rest ih =>
    unfold segments
    by_cases hb : line.isEmpty = true
    · have : line = [] := by simpa using hb
      subst this
      exact ⟨[] :: rest, by simp, by simp, .inr (.inl ⟨rest, rfl, by simp⟩)⟩
    · have hb' : line ≠ [] := by simpa using hb
      by_cases hm : isMarker line = true
      · exact ⟨line :: rest, by simp [hb', hm], by simp [hb', hm], .inr (.inr ⟨line, hb', hm, by simp [hb', hm]⟩)⟩
      · obtain ⟨tail, h1, h2, h3⟩ := ih
        have hm' : isMarker line = false := by simpa using hm
        refine ⟨tail, ?_, ?_, ?_⟩
        · simp [hb', hm', ← h1]
        · simp only [hb, hm', Bool.false_eq_true, ↓reduceIte, List.mem_cons, forall_eq_or_imp]
          exact ⟨⟨hb', trivial⟩, h2⟩
        · simpa [hb', hm'] using h3

/-! ### Cutting brackets -/

theorem stripClose_append (x : Line) : stripClose (x ++ [']']) = some x := by simp [stripClose]

theorem stripClose_none {x : Line} (h : x.getLast? ≠ some ']') : stripClose x = none := by
  unfold stripClose
  rcases List.eq_nil_or_concat x with rfl | ⟨y, c, rfl⟩
  · rfl
  · simp only [List.concat_eq_append, List.reverse_append, List.reverse_cons, List.reverse_nil, List.nil_append,
      List.cons_append]
    split
    · next heq => simp at heq; exact absurd heq.1 (by simpa using h)
    · rfl

/-- The name of a mnemonic finds it. -/
theorem lookupMnemonic_name (m : Mnemonic) : lookupMnemonic (mnemonicName m) = some m := by cases m <;> decide

theorem lookupMnemonic_iff (w : Line) (m : Mnemonic) : lookupMnemonic w = some m ↔ mnemonicName m = w := by
  constructor
  · intro h
    have := List.find?_some h
    simpa using this
  · rintro rfl
    exact lookupMnemonic_name m

theorem lookupMnemonic_none (w : Line) : lookupMnemonic w = none ↔ ∀ m, mnemonicName m ≠ w := by
  constructor
  · intro h m hm
    rw [(lookupMnemonic_iff w m).2 hm] at h
    cases h
  · intro h
    cases hl : lookupMnemonic w with
    | none => rfl
    | some m => exact absurd ((lookupMnemonic_iff w m).1 hl) (h m)

end Sys2Proof.Assembler
end

