-- ==== Sys2Proof/Laws/State.lean ====
section
/-! SUPPORT. One lemma per field of State per named update, so that no later proof unfolds a record update. -/

namespace Sys2Proof.Machine

/-! ### a write of the accumulator -/

@[simp] theorem State.setAcc_acc (s : State) (v : Word) : (s.setAcc v).acc = v := rfl
@[simp] theorem State.setAcc_pc (s : State) (v : Word) : (s.setAcc v).pc = s.pc := rfl
@[simp] theorem State.setAcc_mem (s : State) (v : Word) : (s.setAcc v).mem = s.mem := rfl
@[simp] theorem State.setAcc_lastChanged (s : State) (v : Word) : (s.setAcc v).lastChanged = s.lastChanged := rfl
@[simp] theorem State.setAcc_code (s : State) (v : Word) : (s.setAcc v).code = s.code := rfl
@[simp] theorem State.setAcc_running (s : State) (v : Word) : (s.setAcc v).running = s.running := rfl
@[simp] theorem State.setAcc_terminated (s : State) (v : Word) : (s.setAcc v).terminated = s.terminated := rfl
@[simp] theorem State.setAcc_fault (s : State) (v : Word) : (s.setAcc v).fault = s.fault := rfl
@[simp] theorem State.setAcc_scratch (s : State) (v : Word) : (s.setAcc v).scratch = s.scratch := rfl
@[simp] theorem State.setAcc_config (s : State) (v : Word) : (s.setAcc v).config = s.config := rfl
@[simp] theorem State.setAcc_freeIndex (s : State) (v : Word) : (s.setAcc v).freeIndex = s.freeIndex := rfl

/-! ### a write of the program counter -/

@[simp] theorem State.setPc_acc (s : State) (v : Word) : (s.setPc v).acc = s.acc := rfl
@[simp] theorem State.setPc_pc (s : State) (v : Word) : (s.setPc v).pc = v := rfl
@[simp] theorem State.setPc_mem (s : State) (v : Word) : (s.setPc v).mem = s.mem := rfl
@[simp] theorem State.setPc_lastChanged (s : State) (v : Word) : (s.setPc v).lastChanged = s.lastChanged := rfl
@[simp] theorem State.setPc_code (s : State) (v : Word) : (s.setPc v).code = s.code := rfl
@[simp] theorem State.setPc_running (s : State) (v : Word) : (s.setPc v).running = s.running := rfl
@[simp] theorem State.setPc_terminated (s : State) (v : Word) : (s.setPc v).terminated = s.terminated := rfl
@[simp] theorem State.setPc_fault (s : State) (v : Word) : (s.setPc v).fault = s.fault := rfl
@[simp] theorem State.setPc_scratch (s : State) (v : Word) : (s.setPc v).scratch = s.scratch := rfl
@[simp] theorem State.setPc_config (s : State) (v : Word) : (s.setPc v).config = s.config := rfl
@[simp] theorem State.setPc_freeIndex (s : State) (v : Word) : (s.setPc v).freeIndex = s.freeIndex := rfl

/-! ### the sequential advance -/

@[simp] theorem State.advance_acc (s : State) : s.advance.acc = s.acc := rfl
@[simp] theorem State.advance_pc (s : State) : s.advance.pc = s.pc + 1 := rfl
@[simp] theorem State.advance_mem (s : State) : s.advance.mem = s.mem := rfl
@[simp] theorem State.advance_lastChanged (s : State) : s.advance.lastChanged = s.lastChanged := rfl
@[simp] theorem State.advance_code (s : State) : s.advance.code = s.code := rfl
@[simp] theorem State.advance_running (s : State) : s.advance.running = s.running := rfl
@[simp] theorem State.advance_terminated (s : State) : s.advance.terminated = s.terminated := rfl
@[simp] theorem State.advance_fault (s : State) : s.advance.fault = s.fault := rfl
@[simp] theorem State.advance_scratch (s : State) : s.advance.scratch = s.scratch := rfl
@[simp] theorem State.advance_config (s : State) : s.advance.config = s.config := rfl
@[simp] theorem State.advance_freeIndex (s : State) : s.advance.freeIndex = s.freeIndex := rfl

/-! ### a successful memory write -/

@[simp] theorem State.storeCell_acc (s : State) (a : Nat) (v : Word) : (s.storeCell a v).acc = s.acc := rfl
@[simp] theorem State.storeCell_pc (s : State) (a : Nat) (v : Word) : (s.storeCell a v).pc = s.pc := rfl
@[simp] theorem State.storeCell_mem (s : State) (a : Nat) (v : Word) : (s.storeCell a v).mem = s.mem.write a v := rfl
@[simp] theorem State.storeCell_lastChanged (s : State) (a : Nat) (v : Word) : (s.storeCell a v).lastChanged = some a := rfl
@[simp] theorem State.storeCell_code (s : State) (a : Nat) (v : Word) : (s.storeCell a v).code = s.code := rfl
@[simp] theorem State.storeCell_running (s : State) (a : Nat) (v : Word) : (s.storeCell a v).running = s.running := rfl
@[simp] theorem State.storeCell_terminated (s : State) (a : Nat) (v : Word) : (s.storeCell a v).terminated = s.terminated := rfl
@[simp] theorem State.storeCell_fault (s : State) (a : Nat) (v : Word) : (s.storeCell a v).fault = s.fault := rfl
@[simp] theorem State.storeCell_scratch (s : State) (a : Nat) (v : Word) : (s.storeCell a v).scratch = s.scratch := rfl
@[simp] theorem State.storeCell_config (s : State) (a : Nat) (v : Word) : (s.storeCell a v).config = s.config := rfl
@[simp] theorem State.storeCell_freeIndex (s : State) (a : Nat) (v : Word) : (s.storeCell a v).freeIndex = s.freeIndex := rfl

/-! ### the draw of a free scratch value -/

@[simp] theorem State.freeScratch_acc (s : State) : s.freeScratch.acc = s.acc := rfl
@[simp] theorem State.freeScratch_pc (s : State) : s.freeScratch.pc = s.pc := rfl
@[simp] theorem State.freeScratch_mem (s : State) : s.freeScratch.mem = s.mem := rfl
@[simp] theorem State.freeScratch_lastChanged (s : State) : s.freeScratch.lastChanged = s.lastChanged := rfl
@[simp] theorem State.freeScratch_code (s : State) : s.freeScratch.code = s.code := rfl
@[simp] theorem State.freeScratch_running (s : State) : s.freeScratch.running = s.running := rfl
@[simp] theorem State.freeScratch_terminated (s : State) : s.freeScratch.terminated = s.terminated := rfl
@[simp] theorem State.freeScratch_fault (s : State) : s.freeScratch.fault = s.fault := rfl
@[simp] theorem State.freeScratch_scratch (s : State) : s.freeScratch.scratch = Config.freeScratch s.freeIndex := rfl
@[simp] theorem State.freeScratch_config (s : State) : s.freeScratch.config = s.config := rfl
@[simp] theorem State.freeScratch_freeIndex (s : State) : s.freeScratch.freeIndex = s.freeIndex + 1 := rfl

/-! ### the entry into a failure -/

@[simp] theorem raise_acc (f : FaultRecord) (s : State) : (raise f s).acc = s.acc := rfl
@[simp] theorem raise_pc (f : FaultRecord) (s : State) : (raise f s).pc = s.pc := rfl
@[simp] theorem raise_mem (f : FaultRecord) (s : State) : (raise f s).mem = s.mem := rfl
@[simp] theorem raise_lastChanged (f : FaultRecord) (s : State) : (raise f s).lastChanged = s.lastChanged := rfl
@[simp] theorem raise_code (f : FaultRecord) (s : State) : (raise f s).code = s.code := rfl
@[simp] theorem raise_running (f : FaultRecord) (s : State) : (raise f s).running = false := rfl
@[simp] theorem raise_terminated (f : FaultRecord) (s : State) : (raise f s).terminated = s.terminated := rfl
@[simp] theorem raise_fault (f : FaultRecord) (s : State) : (raise f s).fault = some f := rfl
@[simp] theorem raise_scratch (f : FaultRecord) (s : State) : (raise f s).scratch = s.scratch := rfl
@[simp] theorem raise_config (f : FaultRecord) (s : State) : (raise f s).config = s.config := rfl
@[simp] theorem raise_freeIndex (f : FaultRecord) (s : State) : (raise f s).freeIndex = s.freeIndex := rfl

/-! ### the halt strategy -/

@[simp] theorem haltStrategy_acc (s : State) : (haltStrategy s).acc = s.acc := by
  unfold haltStrategy; split <;> rfl
@[simp] theorem haltStrategy_pc (s : State) : (haltStrategy s).pc = s.pc := by
  unfold haltStrategy; split <;> rfl
@[simp] theorem haltStrategy_mem (s : State) : (haltStrategy s).mem = s.mem := by
  unfold haltStrategy; split <;> rfl
@[simp] theorem haltStrategy_lastChanged (s : State) : (haltStrategy s).lastChanged = s.lastChanged := by
  unfold haltStrategy; split <;> rfl
@[simp] theorem haltStrategy_code (s : State) : (haltStrategy s).code = s.code := by
  unfold haltStrategy; split <;> rfl
@[simp] theorem haltStrategy_running (s : State) : (haltStrategy s).running = false := by
  unfold haltStrategy; split <;> rfl
@[simp] theorem haltStrategy_fault (s : State) : (haltStrategy s).fault = s.fault := by
  unfold haltStrategy; split <;> rfl
@[simp] theorem haltStrategy_scratch (s : State) : (haltStrategy s).scratch = s.scratch := by
  unfold haltStrategy; split <;> rfl
@[simp] theorem haltStrategy_config (s : State) : (haltStrategy s).config = s.config := by
  unfold haltStrategy; split <;> rfl
@[simp] theorem haltStrategy_freeIndex (s : State) : (haltStrategy s).freeIndex = s.freeIndex := by
  unfold haltStrategy; split <;> rfl
@[simp] theorem haltStrategy_terminated (s : State) :
    (haltStrategy s).terminated = (decide (s.config.haltMode = .batch) || s.terminated) := by
  unfold haltStrategy; split <;> simp_all

end Sys2Proof.Machine
end

