-- ==== Sys2Proof/Laws/Memory.lean ====
section
/-! SUPPORT. The laws of the memory list: a read after a write, the canonical form, and that every operation keeps it. -/

namespace Sys2Proof.Machine

@[simp] theorem Memory.read_nil (a : Nat) : Memory.read [] a = 0 := rfl

theorem Memory.read_insert_same (a : Nat) (v : Word) (m : Memory) (h : ∀ c ∈ m, c.1 ≠ a) :
    (Memory.insert a v m).read a = v := by
  induction m with
  | nil => simp [Memory.insert, Memory.read]
  | cons c rest ih =>
    obtain ⟨b, w⟩ := c
    have hb : b ≠ a := h (b, w) (by simp)
    have hr := ih fun c hc => h c (by simp [hc])
    unfold Memory.insert
    split <;> simp [Memory.read, hb, hr]

theorem Memory.read_insert_other (a b : Nat) (v : Word) (m : Memory) (h : b ≠ a) :
    (Memory.insert a v m).read b = m.read b := by
  induction m with
  | nil => simp [Memory.insert, Memory.read, Ne.symm h]
  | cons c rest ih =>
    obtain ⟨x, w⟩ := c
    unfold Memory.insert
    split <;> simp [Memory.read, Ne.symm h, ih]

theorem Memory.read_filter_other (a b : Nat) (m : Memory) (h : b ≠ a) :
    Memory.read (m.filter fun c => c.1 != a) b = m.read b := by
  induction m with
  | nil => rfl
  | cons c rest ih =>
    obtain ⟨x, w⟩ := c
    by_cases hx : x = a
    · subst hx
      simp [ih, Memory.read, Ne.symm h]
    · simp [hx, Memory.read, ih]

theorem Memory.read_of_absent (a : Nat) (m : Memory) (h : ∀ c ∈ m, c.1 ≠ a) : m.read a = 0 := by
  induction m with
  | nil => rfl
  | cons c rest ih =>
    obtain ⟨b, w⟩ := c
    have hb : b ≠ a := h (b, w) (by simp)
    simpa [Memory.read, hb] using ih fun c hc => h c (by simp [hc])

/-- A write puts its word in its cell and leaves every other cell alone, in any list. -/
theorem Memory.read_write (m : Memory) (a b : Nat) (v : Word) :
    (m.write a v).read b = if b = a then v else m.read b := by
  have habs : ∀ c ∈ m.filter (fun c => c.1 != a), c.1 ≠ a := by simp
  unfold Memory.write
  by_cases hb : b = a
  · subst hb
    by_cases hv : v = 0
    · simp only [hv, ↓reduceIte]; exact Memory.read_of_absent _ _ habs
    · simp only [hv, ↓reduceIte]; exact Memory.read_insert_same _ _ _ habs
  · simp only [hb, ↓reduceIte]
    split
    · exact Memory.read_filter_other _ _ _ hb
    · rw [Memory.read_insert_other _ _ _ _ hb, Memory.read_filter_other _ _ _ hb]

@[simp] theorem Memory.read_write_same (m : Memory) (a : Nat) (v : Word) : (m.write a v).read a = v := by
  simp [Memory.read_write]

theorem Memory.read_write_other (m : Memory) (a b : Nat) (v : Word) (h : b ≠ a) :
    (m.write a v).read b = m.read b := by
  simp [Memory.read_write, h]

/-! ### The canonical form -/

/-- The canonical form, said of the whole list at once. -/
theorem Memory.wf_iff (m : Memory) :
    m.wf = true ↔ m.Pairwise (fun c d => c.1 < d.1) ∧ ∀ c ∈ m, c.1 < 512 ∧ c.2 ≠ 0 := by
  induction m with
  | nil => simp [Memory.wf]
  | cons c rest ih =>
    obtain ⟨a, w⟩ := c
    cases rest with
    | nil =>
      simp only [Memory.wf, Bool.and_eq_true, decide_eq_true_eq]
      simp [Config.memSize]
    | cons d rest =>
      obtain ⟨b, x⟩ := d
      simp only [Memory.wf, Bool.and_eq_true, decide_eq_true_eq, ih, List.pairwise_cons, List.mem_cons,
        forall_eq_or_imp]
      constructor
      · rintro ⟨⟨hab, hw⟩, ⟨hb, hp⟩, ⟨hb5, hx⟩, hr⟩
        exact ⟨⟨⟨hab, fun c hc => lt_trans hab (hb c hc)⟩, hb, hp⟩, ⟨by omega, hw⟩, ⟨hb5, hx⟩, hr⟩
      · rintro ⟨⟨⟨hab, _⟩, hb, hp⟩, ⟨_, hw⟩, hx, hr⟩
        exact ⟨⟨hab, hw⟩, ⟨hb, hp⟩, hx, hr⟩

theorem Memory.mem_insert (a : Nat) (v : Word) (m : Memory) (c : Cell) :
    c ∈ Memory.insert a v m ↔ c = (a, v) ∨ c ∈ m := by
  induction m with
  | nil => simp [Memory.insert]
  | cons d rest ih =>
    obtain ⟨b, w⟩ := d
    unfold Memory.insert
    split
    · simp
    · simp only [List.mem_cons, ih]; tauto

theorem Memory.pairwise_insert (a : Nat) (v : Word) (m : Memory) (hp : m.Pairwise (fun c d => c.1 < d.1))
    (h : ∀ c ∈ m, c.1 ≠ a) : (Memory.insert a v m).Pairwise (fun c d => c.1 < d.1) := by
  induction m with
  | nil => simp [Memory.insert]
  | cons d rest ih =>
    obtain ⟨b, w⟩ := d
    rw [List.pairwise_cons] at hp
    have hba : b ≠ a := h (b, w) (by simp)
    unfold Memory.insert
    split
    · next hab =>
      simp only [List.pairwise_cons, List.mem_cons, forall_eq_or_imp]
      exact ⟨⟨hab, fun c hc => lt_trans hab (hp.1 c hc)⟩, hp.1, hp.2⟩
    · next hab =>
      rw [List.pairwise_cons]
      refine ⟨fun c hc => ?_, ih hp.2 fun c hc => h c (by simp [hc])⟩
      rcases (Memory.mem_insert _ _ _ _).1 hc with rfl | hc
      · show b < a; omega
      · exact hp.1 c hc

/-- Every write keeps the canonical form. -/
theorem Memory.wf_write (m : Memory) (a : Nat) (v : Word) (hm : m.wf = true) (ha : a < 512) :
    (m.write a v).wf = true := by
  rw [Memory.wf_iff] at hm ⊢
  have hp := hm.1.filter (fun c => c.1 != a)
  have hall : ∀ c ∈ m.filter (fun c => c.1 != a), c.1 < 512 ∧ c.2 ≠ 0 := fun c hc => hm.2 c (List.mem_filter.1 hc).1
  have habs : ∀ c ∈ m.filter (fun c => c.1 != a), c.1 ≠ a := by simp
  unfold Memory.write
  by_cases hv : v = 0
  · simpa [hv] using ⟨hp, fun c d hc hd => hall (c, d) (by simp [hc, hd])⟩
  · simp only [hv, ↓reduceIte]
    refine ⟨Memory.pairwise_insert _ _ _ hp habs, fun c hc => ?_⟩
    rcases (Memory.mem_insert _ _ _ _).1 hc with rfl | hc
    · exact ⟨ha, hv⟩
    · exact hall c hc

/-- `clear` keeps the canonical form. -/
theorem Memory.wf_cleared (m : Memory) (skips : Bool) (hm : m.wf = true) : (m.cleared skips).wf = true := by
  cases skips with
  | false => rfl
  | true =>
    rw [Memory.wf_iff] at hm ⊢
    exact ⟨hm.1.filter _, fun c hc => hm.2 c (List.mem_filter.1 hc).1⟩

/-- What `clear` leaves in each cell. -/
theorem Memory.read_cleared (m : Memory) (skips : Bool) (a : Nat) :
    (m.cleared skips).read a = if skips = true ∧ a = 511 then m.read a else 0 := by
  cases skips with
  | false => simp [Memory.cleared]
  | true =>
    simp only [Memory.cleared, ↓reduceIte, true_and]
    induction m with
    | nil => simp
    | cons c rest ih =>
      obtain ⟨b, w⟩ := c
      by_cases hb : b = 511
      · subst hb
        by_cases ha : a = 511
        · subst ha; simp [Memory.read]
        · simp [Memory.read, ha, Ne.symm ha] at ih ⊢
          exact ih
      · have hf : (List.filter (fun c : Cell => c.1 == Config.memSize - 1) ((b, w) :: rest)) =
            List.filter (fun c : Cell => c.1 == Config.memSize - 1) rest := by simp [hb]
        rw [hf, ih]
        by_cases ha : a = 511
        · subst ha; simp [Memory.read, hb]
        · simp [ha]

/-! ### Blocks -/

theorem Memory.read_writeBlock (ws : List Word) (m : Memory) (a b : Nat) :
    (m.writeBlock a ws).read b = if a ≤ b ∧ b < a + ws.length then ws.getD (b - a) 0 else m.read b := by
  induction ws generalizing m a with
  | nil =>
    simp [Memory.writeBlock]
  | cons w rest ih =>
    rw [Memory.writeBlock, ih, Memory.read_write]
    rcases Nat.lt_trichotomy b a with h | h | h
    · have h1 : ¬ (a + 1 ≤ b ∧ b < a + 1 + rest.length) := by omega
      have h2 : ¬ (a ≤ b ∧ b < a + (w :: rest).length) := by omega
      have h3 : b ≠ a := by omega
      simp only [h1, h2, h3, ↓reduceIte]
    · subst h
      simp
    · have h3 : b ≠ a := by omega
      have h4 : b - a = (b - (a + 1)) + 1 := by omega
      by_cases h1 : b < a + 1 + rest.length
      · have h5 : a + 1 ≤ b ∧ b < a + 1 + rest.length := by omega
        have h6 : a ≤ b ∧ b < a + (w :: rest).length := by simp; omega
        rw [if_pos h5, if_pos h6, h4, List.getD_cons_succ]
      · have h5 : ¬ (a + 1 ≤ b ∧ b < a + 1 + rest.length) := by omega
        have h6 : ¬ (a ≤ b ∧ b < a + (w :: rest).length) := by simp; omega
        rw [if_neg h5, if_neg h6, if_neg h3]

/-- A block write inside memory keeps the canonical form. -/
theorem Memory.wf_writeBlock (ws : List Word) (m : Memory) (a : Nat) (hm : m.wf = true) (ha : a + ws.length ≤ 512) :
    (m.writeBlock a ws).wf = true := by
  induction ws generalizing m a with
  | nil => exact hm
  | cons w rest ih =>
    simp only [List.length_cons] at ha
    exact ih _ _ (Memory.wf_write m a w hm (by omega)) (by omega)

@[simp] theorem Memory.length_window (m : Memory) (a l : Nat) : (m.window a l).length = l := by
  simp [Memory.window]

theorem Memory.getD_window (m : Memory) (a l i : Nat) (h : i < l) : (m.window a l).getD i 0 = m.read (a + i) := by
  simp [Memory.window, List.getD, h]

end Sys2Proof.Machine
end

