-- ==== Sys2Proof/Laws/Operands.lean ====
section
/-! SUPPORT. What the access primitives, the resolver and the common shape of an instruction can do, each said once. -/

namespace Sys2Proof.Machine

theorem inBounds_iff (a : Int) : inBounds a = true ↔ 0 ≤ a ∧ a < 512 := by simp [inBounds]

theorem memRead_in {a : Int} {s : State} (h : 0 ≤ a ∧ a < 512) : memRead a s = .ok (s.mem.read a.toNat) := by
  simp [memRead, (inBounds_iff a).2 h]

theorem memRead_out {a : Int} {s : State} (h : ¬ (0 ≤ a ∧ a < 512)) : memRead a s = .error ⟨.outOfRange, a⟩ := by
  simp [memRead, inBounds_iff a, h]

theorem memWrite_in {a : Int} {v : Word} {s : State} (h : 0 ≤ a ∧ a < 512) :
    memWrite a v s = .ok (s.storeCell a.toNat v) := by
  simp [memWrite, (inBounds_iff a).2 h]

theorem memWrite_out {a : Int} {v : Word} {s : State} (h : ¬ (0 ≤ a ∧ a < 512)) :
    memWrite a v s = .error ⟨.outOfRange, a⟩ := by
  simp [memWrite, inBounds_iff a, h]

/-- All a read can do. -/
theorem memRead_ok {a : Int} {s : State} {w : Word} (h : memRead a s = .ok w) :
    0 ≤ a ∧ a < 512 ∧ w = s.mem.read a.toNat := by
  by_cases hb : 0 ≤ a ∧ a < 512
  · rw [memRead_in hb] at h; exact ⟨hb.1, hb.2, (Except.ok.inj h).symm⟩
  · rw [memRead_out hb] at h; cases h

/-- All a write can do. -/
theorem memWrite_ok {a : Int} {v : Word} {s t : State} (h : memWrite a v s = .ok t) :
    0 ≤ a ∧ a < 512 ∧ t = s.storeCell a.toNat v := by
  by_cases hb : 0 ≤ a ∧ a < 512
  · rw [memWrite_in hb] at h; exact ⟨hb.1, hb.2, (Except.ok.inj h).symm⟩
  · rw [memWrite_out hb] at h; cases h

/-- A read depends on memory only. -/
theorem memRead_congr (a : Int) {s t : State} (h : s.mem = t.mem) : memRead a s = memRead a t := by
  simp [memRead, h]

theorem dereference_congr (n : Nat) (v : Word) {s t : State} (h : s.mem = t.mem) :
    dereference n v s = dereference n v t := by
  induction n generalizing v with
  | zero => rfl
  | succ n ih =>
    simp only [dereference, memRead_congr _ h]
    cases memRead v.toInt t with
    | ok w => exact ih w
    | error f => rfl

theorem allowsLevel_iff (m : Mnemonic) (lvl : Int) :
    m.allowsLevel lvl = true ↔ m.descriptor.min ≤ lvl ∧ lvl ≤ m.descriptor.max := by
  simp [Mnemonic.allowsLevel]

/-- All an instruction of the common shape can do: enter a failure from the untouched state, or end in the state its
semantics give for its operand. -/
theorem withOperand_cases {m : Mnemonic} {arg : Word} {lvl : Int} {s : State}
    {semantics : Word → Except FaultRecord State} :
    (∃ f, withOperand m arg lvl s semantics = .next (raise f s)) ∨
    (∃ v t, m.allowsLevel lvl = true ∧ resolve m arg lvl s = .ok v ∧ semantics v = .ok t ∧
      withOperand m arg lvl s semantics = .next t) := by
  unfold withOperand validateLevel
  split
  · exact .inl ⟨_, rfl⟩
  · next hv =>
    have ha : m.allowsLevel lvl = true := by
      by_contra h; simp [h] at hv
    split
    · exact .inl ⟨_, rfl⟩
    · next v hr =>
      split
      · exact .inl ⟨_, rfl⟩
      · next t ht => exact .inr ⟨v, t, ha, hr, ht, rfl⟩

/-- An instruction of the common shape whose level is outside the interval. -/
theorem withOperand_illegal {m : Mnemonic} {arg : Word} {lvl : Int} {s : State}
    {semantics : Word → Except FaultRecord State} (h : m.allowsLevel lvl = false) :
    withOperand m arg lvl s semantics = .next (raise ⟨.invalidIndirection, lvl⟩ s) := by
  simp [withOperand, validateLevel, h]

/-- … whose operand cannot be resolved. -/
theorem withOperand_unresolved {m : Mnemonic} {arg : Word} {lvl : Int} {s : State} {f : FaultRecord}
    {semantics : Word → Except FaultRecord State} (h : m.allowsLevel lvl = true) (hr : resolve m arg lvl s = .error f) :
    withOperand m arg lvl s semantics = .next (raise f s) := by
  simp [withOperand, validateLevel, h, hr]

/-- … whose semantics fail. -/
theorem withOperand_fails {m : Mnemonic} {arg v : Word} {lvl : Int} {s : State} {f : FaultRecord}
    {semantics : Word → Except FaultRecord State} (h : m.allowsLevel lvl = true) (hr : resolve m arg lvl s = .ok v)
    (hs : semantics v = .error f) : withOperand m arg lvl s semantics = .next (raise f s) := by
  simp [withOperand, validateLevel, h, hr, hs]

/-- … that completes. -/
theorem withOperand_completes {m : Mnemonic} {arg v : Word} {lvl : Int} {s t : State}
    {semantics : Word → Except FaultRecord State} (h : m.allowsLevel lvl = true) (hr : resolve m arg lvl s = .ok v)
    (hs : semantics v = .ok t) : withOperand m arg lvl s semantics = .next t := by
  simp [withOperand, validateLevel, h, hr, hs]

/-! ### The resolver at each distance from the base level -/

theorem resolve_base {m : Mnemonic} {arg : Word} {lvl : Int} {s : State} (h : lvl = m.descriptor.base) :
    resolve m arg lvl s = .ok arg := by
  simp [resolve, h, dereference]

theorem resolve_one {m : Mnemonic} {arg : Word} {lvl : Int} {s : State} (h : lvl = m.descriptor.base + 1)
    (ha : 0 ≤ arg.toInt ∧ arg.toInt < 512) : resolve m arg lvl s = .ok (s.mem.read arg.toInt.toNat) := by
  have : (lvl - m.descriptor.base).toNat = 1 := by omega
  simp [resolve, this, dereference, memRead_in ha]

theorem resolve_two {m : Mnemonic} {arg : Word} {lvl : Int} {s : State} (h : lvl = m.descriptor.base + 2)
    (ha : 0 ≤ arg.toInt ∧ arg.toInt < 512)
    (hb : 0 ≤ (s.mem.read arg.toInt.toNat).toInt ∧ (s.mem.read arg.toInt.toNat).toInt < 512) :
    resolve m arg lvl s = .ok (s.mem.read (s.mem.read arg.toInt.toNat).toInt.toNat) := by
  have : (lvl - m.descriptor.base).toNat = 2 := by omega
  simp [resolve, this, dereference, memRead_in ha, memRead_in hb]

theorem resolve_first_fails {m : Mnemonic} {arg : Word} {lvl : Int} {s : State} (h : m.descriptor.base < lvl)
    (ha : ¬ (0 ≤ arg.toInt ∧ arg.toInt < 512)) : resolve m arg lvl s = .error ⟨.outOfRange, arg.toInt⟩ := by
  obtain ⟨n, hn⟩ : ∃ n, (lvl - m.descriptor.base).toNat = n + 1 := ⟨(lvl - m.descriptor.base).toNat - 1, by omega⟩
  simp [resolve, hn, dereference, memRead_out ha]

theorem resolve_second_fails {m : Mnemonic} {arg : Word} {lvl : Int} {s : State} (h : lvl = m.descriptor.base + 2)
    (ha : 0 ≤ arg.toInt ∧ arg.toInt < 512)
    (hb : ¬ (0 ≤ (s.mem.read arg.toInt.toNat).toInt ∧ (s.mem.read arg.toInt.toNat).toInt < 512)) :
    resolve m arg lvl s = .error ⟨.outOfRange, (s.mem.read arg.toInt.toNat).toInt⟩ := by
  have : (lvl - m.descriptor.base).toNat = 2 := by omega
  simp [resolve, this, dereference, memRead_in ha, memRead_out hb]

end Sys2Proof.Machine
end

