-- ==== Sys2Proof/Laws/Rotate.lean ====
section
/-! SUPPORT. ROT: what its checks answer, what its closed form leaves in each cell, and what one loop iteration does. -/

namespace Sys2Proof.Machine

/-- All the checks of ROT can answer when they pass. -/
theorem rotCheck_ok {v : Int} {s : State} {c : RotControl} (h : rotCheck v s = .ok c) :
    rotControl v s = .ok c ∧ c.valid v = true ∧ c.overruns s.config.rotMode = false := by
  unfold rotCheck at h
  split at h
  · cases h
  · next c' hc =>
    split at h
    · cases h
    · next hv =>
      split at h
      · cases h
      · next ho =>
        cases h
        exact ⟨hc, by simpa using hv, by simpa using ho⟩

/-- A valid control block, said in integers. -/
theorem RotControl.valid_iff (c : RotControl) (v : Int) :
    c.valid v = true ↔ 0 ≤ c.start ∧ 0 ≤ c.length ∧ c.start + c.length - 1 < 512 ∧
      ¬ (1 ≤ c.length ∧ c.start ≤ v + 2 ∧ v ≤ c.start + c.length - 1) := by
  simp [RotControl.valid, RotControl.overlaps]
  omega

theorem RotControl.overruns_iff (c : RotControl) (mode : RotMode) :
    c.overruns mode = true ↔ mode = .compat ∧ c.shift < 0 ∧ 1 ≤ c.length ∧ 511 < c.start + c.length := by
  simp [RotControl.overruns]
  tauto

theorem rotControl_in {v : Int} {s : State} (h0 : 0 ≤ v) (h2 : v + 2 < 512) :
    rotControl v s = .ok ⟨(s.mem.read v.toNat).toInt, (s.mem.read (v.toNat + 1)).toInt,
      (s.mem.read (v.toNat + 2)).toInt⟩ := by
  have e1 : (v + 1).toNat = v.toNat + 1 := by omega
  have e2 : (v + 2).toNat = v.toNat + 2 := by omega
  simp [rotControl, memRead_in (s := s) (a := v) ⟨h0, by omega⟩, memRead_in (s := s) (a := v + 1) ⟨by omega, by omega⟩,
    memRead_in (s := s) (a := v + 2) ⟨by omega, h2⟩, e1, e2]

theorem rotControl_congr (v : Int) {s t : State} (h : s.mem = t.mem) : rotControl v s = rotControl v t := by
  simp [rotControl, memRead_congr _ h]

theorem rotCheck_congr (v : Int) {s t : State} (h : s.mem = t.mem) (hc : s.config = t.config) :
    rotCheck v s = rotCheck v t := by
  simp [rotCheck, rotControl_congr v h, hc]

/-! ### The closed form -/

theorem length_rotated_right {mode : RotMode} {m : Int} {w : List Word} (h : 0 < m) :
    (rotated mode m w).length = w.length := by
  simp [rotated, h]

theorem length_rotated_left_fixed {m : Int} {w : List Word} (h : m < 0) :
    (rotated .fixed m w).length = w.length := by
  have : ¬ 0 < m := by omega
  simp [rotated, this]

theorem length_rotated_left_compat {m : Int} {w : List Word} (h : m < 0) :
    (rotated .compat m w).length = w.length + 1 := by
  have : ¬ 0 < m := by omega
  simp [rotated, this]

theorem getD_rotated_right {mode : RotMode} {m : Int} {w : List Word} {i : Nat} (h : 0 < m) (hi : i < w.length) :
    (rotated mode m w).getD i 0 = w.getD ((i + (w.length - m.natAbs % w.length)) % w.length) 0 := by
  simp [rotated, h, List.getD, hi]

theorem getD_rotated_left_fixed {m : Int} {w : List Word} {i : Nat} (h : m < 0) (hi : i < w.length) :
    (rotated .fixed m w).getD i 0 = w.getD ((i + m.natAbs) % w.length) 0 := by
  have : ¬ 0 < m := by omega
  simp [rotated, this, List.getD, hi]

theorem getD_rotated_left_compat {m : Int} {w : List Word} {i : Nat} (h : m < 0) (hi : i < w.length) :
    (rotated .compat m w).getD i 0 = w.getD (min (i + m.natAbs) (w.length - 1)) 0 := by
  have : ¬ 0 < m := by omega
  simp [rotated, this, List.getD, hi, List.getElem?_append]

theorem getD_rotated_left_compat_last {m : Int} {w : List Word} (h : m < 0) :
    (rotated .compat m w).getD w.length 0 = w.getD (min (m.natAbs - 1) (w.length - 1)) 0 := by
  have : ¬ 0 < m := by omega
  simp [rotated, this, List.getD]

/-! ### One iteration of the loops -/

theorem moveDown_read (n a b : Nat) (s : State) :
    (moveDown n a s).mem.read b = if a ≤ b ∧ b < a + n then s.mem.read (b + 1) else s.mem.read b := by
  induction n generalizing a s with
  | zero =>
    have : ¬ (a ≤ b ∧ b < a + 0) := by omega
    rw [if_neg this]; rfl
  | succ n ih =>
    rw [moveDown, ih, State.storeCell_mem, Memory.read_write, Memory.read_write]
    by_cases h1 : a + 1 ≤ b ∧ b < a + 1 + n
    · have h2 : a ≤ b ∧ b < a + (n + 1) := by omega
      have h3 : b + 1 ≠ a := by omega
      rw [if_pos h1, if_pos h2, if_neg h3]
    · rw [if_neg h1]
      by_cases h4 : b = a
      · subst h4
        have h2 : b ≤ b ∧ b < b + (n + 1) := by omega
        rw [if_pos rfl, if_pos h2]
      · have h2 : ¬ (a ≤ b ∧ b < a + (n + 1)) := by omega
        rw [if_neg h4, if_neg h2]

theorem moveUp_read (n a b : Nat) (s : State) :
    (moveUp n a s).mem.read b = if a < b ∧ b ≤ a + n then s.mem.read (b - 1) else s.mem.read b := by
  induction n generalizing s with
  | zero =>
    have : ¬ (a < b ∧ b ≤ a + 0) := by omega
    rw [if_neg this]; rfl
  | succ n ih =>
    rw [moveUp, ih, State.storeCell_mem, Memory.read_write, Memory.read_write]
    by_cases h1 : a < b ∧ b ≤ a + n
    · have h2 : a < b ∧ b ≤ a + (n + 1) := by omega
      have h3 : b - 1 ≠ a + n + 1 := by omega
      rw [if_pos h1, if_pos h2, if_neg h3]
    · rw [if_neg h1]
      by_cases h4 : b = a + n + 1
      · subst h4
        have h2 : a < a + n + 1 ∧ a + n + 1 ≤ a + (n + 1) := by omega
        rw [if_pos rfl, if_pos h2]
        rfl
      · have h2 : ¬ (a < b ∧ b ≤ a + (n + 1)) := by omega
        rw [if_neg h4, if_neg h2]

/-- The inner loops touch memory and the marker only. -/
theorem moveDown_rest (n a : Nat) (s : State) :
    (moveDown n a s).scratch = s.scratch ∧ (moveDown n a s).config = s.config := by
  induction n generalizing a s with
  | zero => exact ⟨rfl, rfl⟩
  | succ n ih => exact ih (a + 1) _

theorem moveUp_rest (n a : Nat) (s : State) :
    (moveUp n a s).scratch = s.scratch ∧ (moveUp n a s).config = s.config := by
  induction n generalizing s with
  | zero => exact ⟨rfl, rfl⟩
  | succ n ih => exact ih _

/-- One left iteration, cell by cell (R134). -/
theorem rotateLeftOne_read (a l b : Nat) (s : State) (hl : 1 ≤ l) :
    (rotateLeftOne a l s).mem.read b =
      if b = a + l - 1 then s.mem.read a else if a ≤ b ∧ b < a + l - 1 then s.mem.read (b + 1) else s.mem.read b := by
  simp only [rotateLeftOne, State.storeCell_mem, Memory.read_write, moveDown_read, (moveDown_rest _ _ _).1]
  have : a + (l - 1) = a + l - 1 := by omega
  rw [this]

/-- One compat left iteration, cell by cell (R140). -/
theorem rotateLeftOneCompat_read (a l b : Nat) (s : State) (hl : 1 ≤ l) :
    (rotateLeftOneCompat a l s).mem.read b =
      if b = a + l then s.mem.read a else if a ≤ b ∧ b < a + l - 1 then s.mem.read (b + 1) else s.mem.read b := by
  simp only [rotateLeftOneCompat, State.storeCell_mem, Memory.read_write, moveDown_read, (moveDown_rest _ _ _).1]
  have : a + (l - 1) = a + l - 1 := by omega
  rw [this]

/-- One right iteration, cell by cell (R135). -/
theorem rotateRightOne_read (a l b : Nat) (s : State) (hl : 1 ≤ l) :
    (rotateRightOne a l s).mem.read b =
      if b = a then s.mem.read (a + l - 1) else if a < b ∧ b ≤ a + l - 1 then s.mem.read (b - 1) else s.mem.read b := by
  simp only [rotateRightOne, State.storeCell_mem, Memory.read_write, moveUp_read, (moveUp_rest _ _ _).1]
  have : a + (l - 1) = a + l - 1 := by omega
  rw [this]

/-- The repeat loop, its last iteration taken off. -/
theorem repeatTimes_succ (n : Nat) (f : State → State) (s : State) :
    repeatTimes (n + 1) f s = f (repeatTimes n f s) := by
  induction n generalizing s with
  | zero => rfl
  | succ n ih => exact ih (f s)

end Sys2Proof.Machine
end

