-- ==== Sys2Proof/Laws/Step.lean ====
section
/-! SUPPORT. What one instruction and one step can do, said once; every invariant is derived from these. -/

namespace Sys2Proof.Machine

/-- The state an instruction leaves when it completes, as one of the kinds of update the instruction set has. -/
inductive Completes (i : Instr) (s : State) : State → Prop where
  | accumulator (v : Word)
      (h : i.mnemonic = .lod ∨ i.mnemonic = .add ∨ i.mnemonic = .sub ∨ i.mnemonic = .mul ∨ i.mnemonic = .div ∨
        i.mnemonic = .and ∨ i.mnemonic = .not ∨ i.mnemonic = .cmpz ∨ i.mnemonic = .cmpl) :
      Completes i s (s.setAcc v).advance
  | store (a : Nat) (ha : a < 512) (h : i.mnemonic = .sto) : Completes i s (s.storeCell a s.acc).advance
  | only (h : i.mnemonic = .nop ∨ i.mnemonic = .jmpz) : Completes i s s.advance
  | jump (v : Word) (h : i.mnemonic = .jump ∨ i.mnemonic = .jmpz) : Completes i s (s.setPc v)
  | halt (a : Word) (h : i = .halt a 0) : Completes i s (haltStrategy s)
  | rot (a : Word) (c : RotControl) (h : i = .rot a 0) (hc : rotCheck a.toInt s = .ok c) :
      Completes i s (rotateWindow c s).freeScratch.advance

/-- Every instruction either enters a failure from the untouched state or completes in one of these ways. -/
theorem exec_cases (i : Instr) (s : State) :
    (∃ f, exec i s = .next (raise f s)) ∨ (∃ t, exec i s = .next t ∧ Completes i s t) := by
  cases i with
  | nop arg lvl =>
    rcases withOperand_cases (m := .nop) (arg := arg) (lvl := lvl) (s := s) (semantics := fun _ => .ok s.advance)
      with ⟨f, h⟩ | ⟨v, t, -, -, hs, h⟩
    · exact .inl ⟨f, h⟩
    · cases hs; exact .inr ⟨_, h, .only (.inl rfl)⟩
  | lod arg lvl =>
    rcases withOperand_cases (m := .lod) (arg := arg) (lvl := lvl) (s := s)
      (semantics := fun v => .ok (s.setAcc v).advance) with ⟨f, h⟩ | ⟨v, t, -, -, hs, h⟩
    · exact .inl ⟨f, h⟩
    · cases hs; exact .inr ⟨_, h, .accumulator _ (by simp [Instr.mnemonic])⟩
  | sto arg lvl =>
    rcases withOperand_cases (m := .sto) (arg := arg) (lvl := lvl) (s := s)
      (semantics := fun v => match memWrite v.toInt s.acc s with | .ok t => .ok t.advance | .error f => .error f)
      with ⟨f, h⟩ | ⟨v, t, -, -, hs, h⟩
    · exact .inl ⟨f, h⟩
    · split at hs
      · next u hu =>
        cases hs
        obtain ⟨h0, h1, rfl⟩ := memWrite_ok hu
        exact .inr ⟨_, h, .store _ (by omega) rfl⟩
      · cases hs
  | add arg lvl =>
    rcases withOperand_cases (m := .add) (arg := arg) (lvl := lvl) (s := s)
      (semantics := fun v => .ok (s.setAcc (Config.arithmetic.add s.acc v)).advance) with ⟨f, h⟩ | ⟨v, t, -, -, hs, h⟩
    · exact .inl ⟨f, h⟩
    · cases hs; exact .inr ⟨_, h, .accumulator _ (by simp [Instr.mnemonic])⟩
  | sub arg lvl =>
    rcases withOperand_cases (m := .sub) (arg := arg) (lvl := lvl) (s := s)
      (semantics := fun v => .ok (s.setAcc (Config.arithmetic.sub s.acc v)).advance) with ⟨f, h⟩ | ⟨v, t, -, -, hs, h⟩
    · exact .inl ⟨f, h⟩
    · cases hs; exact .inr ⟨_, h, .accumulator _ (by simp [Instr.mnemonic])⟩
  | mul arg lvl =>
    rcases withOperand_cases (m := .mul) (arg := arg) (lvl := lvl) (s := s)
      (semantics := fun v => .ok (s.setAcc (Config.arithmetic.mul s.acc v)).advance) with ⟨f, h⟩ | ⟨v, t, -, -, hs, h⟩
    · exact .inl ⟨f, h⟩
    · cases hs; exact .inr ⟨_, h, .accumulator _ (by simp [Instr.mnemonic])⟩
  | div arg lvl =>
    rcases withOperand_cases (m := .div) (arg := arg) (lvl := lvl) (s := s)
      (semantics := fun v => if v = 0 then .error ⟨.arithmeticError, 0⟩ else .ok (s.setAcc (Config.arithmetic.div s.acc v)).advance)
      with ⟨f, h⟩ | ⟨v, t, -, -, hs, h⟩
    · exact .inl ⟨f, h⟩
    · split at hs
      · cases hs
      · cases hs; exact .inr ⟨_, h, .accumulator _ (by simp [Instr.mnemonic])⟩
  | and arg lvl =>
    rcases withOperand_cases (m := .and) (arg := arg) (lvl := lvl) (s := s)
      (semantics := fun v => .ok (s.setAcc (truthWord (!isZero v && !isZero s.acc))).advance)
      with ⟨f, h⟩ | ⟨v, t, -, -, hs, h⟩
    · exact .inl ⟨f, h⟩
    · cases hs; exact .inr ⟨_, h, .accumulator _ (by simp [Instr.mnemonic])⟩
  | not arg lvl =>
    rcases withOperand_cases (m := .not) (arg := arg) (lvl := lvl) (s := s)
      (semantics := fun _ => .ok (s.setAcc (truthWord (isZero s.acc))).advance) with ⟨f, h⟩ | ⟨v, t, -, -, hs, h⟩
    · exact .inl ⟨f, h⟩
    · cases hs; exact .inr ⟨_, h, .accumulator _ (by simp [Instr.mnemonic])⟩
  | cmpz arg lvl =>
    rcases withOperand_cases (m := .cmpz) (arg := arg) (lvl := lvl) (s := s)
      (semantics := fun v => match memRead v.toInt s with
        | .ok t => .ok (s.setAcc (truthWord (isZero t))).advance | .error f => .error f)
      with ⟨f, h⟩ | ⟨v, t, -, -, hs, h⟩
    · exact .inl ⟨f, h⟩
    · split at hs
      · cases hs; exact .inr ⟨_, h, .accumulator _ (by simp [Instr.mnemonic])⟩
      · cases hs
  | cmpl arg lvl =>
    rcases withOperand_cases (m := .cmpl) (arg := arg) (lvl := lvl) (s := s)
      (semantics := fun v => match memRead v.toInt s with
        | .ok t => .ok (s.setAcc (truthWord (isNegative t))).advance | .error f => .error f)
      with ⟨f, h⟩ | ⟨v, t, -, -, hs, h⟩
    · exact .inl ⟨f, h⟩
    · split at hs
      · cases hs; exact .inr ⟨_, h, .accumulator _ (by simp [Instr.mnemonic])⟩
      · cases hs
  | jump arg lvl =>
    rcases withOperand_cases (m := .jump) (arg := arg) (lvl := lvl) (s := s) (semantics := fun v => .ok (s.setPc v))
      with ⟨f, h⟩ | ⟨v, t, -, -, hs, h⟩
    · exact .inl ⟨f, h⟩
    · cases hs; exact .inr ⟨_, h, .jump _ (.inl rfl)⟩
  | jmpz arg lvl =>
    rcases withOperand_cases (m := .jmpz) (arg := arg) (lvl := lvl) (s := s)
      (semantics := fun v => .ok (if isZero s.acc then s.setPc v else s.advance)) with ⟨f, h⟩ | ⟨v, t, -, -, hs, h⟩
    · exact .inl ⟨f, h⟩
    · cases hs
      refine .inr ⟨_, h, ?_⟩
      split
      · exact .jump _ (.inr rfl)
      · exact .only (.inr rfl)
  | halt arg lvl =>
    rcases withOperand_cases (m := .halt) (arg := arg) (lvl := lvl) (s := s)
      (semantics := fun _ => .ok (haltStrategy s)) with ⟨f, h⟩ | ⟨v, t, hl, -, hs, h⟩
    · exact .inl ⟨f, h⟩
    · cases hs
      have : lvl = 0 := by
        have := (allowsLevel_iff _ _).1 hl
        simp only [Mnemonic.descriptor] at this
        omega
      subst this
      exact .inr ⟨_, h, .halt arg rfl⟩
  | rot arg lvl =>
    rcases withOperand_cases (m := .rot) (arg := arg) (lvl := lvl) (s := s)
      (semantics := fun v => match rotCheck v.toInt s with
        | .error f => .error f | .ok c => .ok (rotateWindow c s).freeScratch.advance)
      with ⟨f, h⟩ | ⟨v, t, hl, hr, hs, h⟩
    · exact .inl ⟨f, h⟩
    · have hl0 : lvl = 0 := by
        have := (allowsLevel_iff _ _).1 hl
        simp only [Mnemonic.descriptor] at this
        omega
      subst hl0
      cases hr.symm.trans (resolve_base (s := s) (arg := arg) (m := .rot) rfl)
      split at hs
      · cases hs
      · next c hc => cases hs; exact .inr ⟨_, h, .rot arg c rfl hc⟩

/-- All a step can do: nothing (gated), a failure entered from the untouched state, or a completed instruction. -/
theorem step_cases (s : State) :
    (step s = .next s ∧ (s.terminated = true ∨ s.running = false)) ∨
    (s.terminated = false ∧ s.running = true ∧
      ((∃ f, step s = .next (raise f s)) ∨
       (∃ slot i t, fetch s = .ok slot ∧ decode slot = .ok i ∧ step s = .next t ∧ exec i s = .next t ∧
         Completes i s t))) := by
  unfold step
  by_cases ht : s.terminated = true
  · exact .inl ⟨by simp [gated, ht], .inl ht⟩
  · by_cases hr : s.running = false
    · exact .inl ⟨by simp [gated, hr], .inr hr⟩
    · refine .inr ⟨by simpa using ht, by simpa using hr, ?_⟩
      rw [if_neg (by simp [gated, ht, hr])]
      cases hf : fetch s with
      | error f => exact .inl ⟨f, rfl⟩
      | ok slot =>
        dsimp only
        cases hd : decode slot with
        | error e => exact .inl ⟨lookupFailure e, rfl⟩
        | ok i =>
          rcases exec_cases i s with ⟨f, h⟩ | ⟨t, h, hc⟩
          · exact .inl ⟨f, h⟩
          · exact .inr ⟨slot, i, t, rfl, hd, h, h, hc⟩

/-- A fetch answers the slot at `pc`. -/
theorem fetch_ok {s : State} {slot : Slot} (h : fetch s = .ok slot) :
    0 ≤ s.pc.toInt ∧ s.code[s.pc.toInt.toNat]? = some slot := by
  unfold fetch at h
  split at h
  · cases h
  · next hp =>
    split at h
    · next sl hs => cases h; exact ⟨by omega, hs⟩
    · cases h

theorem fetch_in {s : State} {slot : Slot} (h0 : 0 ≤ s.pc.toInt) (h : s.code[s.pc.toInt.toNat]? = some slot) :
    fetch s = .ok slot := by
  have : ¬ s.pc.toInt < 0 := by omega
  simp [fetch, this, h]

theorem fetch_out {s : State} (h : s.pc.toInt < 0 ∨ (s.code.length : Int) ≤ s.pc.toInt) :
    fetch s = .error ⟨.fetchOutOfRange, s.pc.toInt⟩ := by
  unfold fetch
  split
  · rfl
  · have : s.code[s.pc.toInt.toNat]? = none := by
      rw [List.getElem?_eq_none_iff]; omega
    rw [this]

/-- A step of a machine that fetches a slot. -/
theorem step_of_fetch {s : State} {slot : Slot} (ht : s.terminated = false) (hr : s.running = true)
    (hf : fetch s = .ok slot) :
    step s = match decode slot with | .error e => .next (raise (lookupFailure e) s) | .ok i => exec i s := by
  unfold step gated
  rw [ht, hr, hf]
  rfl

/-- A step of a machine that does not fetch one. -/
theorem step_of_no_fetch {s : State} {f : FaultRecord} (ht : s.terminated = false) (hr : s.running = true)
    (hf : fetch s = .error f) : step s = .next (raise f s) := by
  unfold step gated
  rw [ht, hr, hf]
  rfl

theorem step_of_gate {s : State} (h : s.terminated = true ∨ s.running = false) : step s = .next s := by
  unfold step
  rw [if_pos]
  rcases h with h | h <;> simp [gated, h]

theorem stepState_of_step {s t : State} (h : step s = .next t) : stepState s = t := by
  simp only [stepState, h]

@[simp] theorem State.unlatched_fault (s : State) : s.unlatched.fault = none := rfl

@[simp] theorem fetch_unlatched (s : State) : fetch s.unlatched = fetch s := rfl

theorem State.unlatched_eq {s : State} (h : s.fault = none) : s.unlatched = s := by
  cases s; cases h; rfl

/-- The rotation touches memory and the marker only. -/
theorem rotateWindow_rest (c : RotControl) (s : State) :
    (rotateWindow c s).acc = s.acc ∧ (rotateWindow c s).pc = s.pc ∧ (rotateWindow c s).code = s.code ∧
    (rotateWindow c s).running = s.running ∧ (rotateWindow c s).terminated = s.terminated ∧
    (rotateWindow c s).fault = s.fault ∧ (rotateWindow c s).config = s.config ∧
    (rotateWindow c s).scratch = s.scratch ∧ (rotateWindow c s).freeIndex = s.freeIndex := by
  unfold rotateWindow
  split <;> exact ⟨rfl, rfl, rfl, rfl, rfl, rfl, rfl, rfl, rfl⟩

/-! ### Loading a file -/

theorem loadFile_of_image {file : List Assembler.Line} {image : Assembler.Image}
    (h : Assembler.readArtifact file = some image) (s : State) : loadFile file s = loadImage image s := by
  simp only [loadFile, h]

theorem loadFile_of_none {file : List Assembler.Line} (h : Assembler.readArtifact file = none) (s : State) :
    loadFile file s = ⟨s, some .malformedFile⟩ := by
  simp only [loadFile, h]

/-- All the loading of a file can do to the state: nothing, or what loading its image does. -/
theorem perform_loadFile (file : List Assembler.Line) (s : State) :
    perform (.loadFile file) s = s ∨ ∃ image, perform (.loadFile file) s = perform (.loadImage image) s := by
  cases h : Assembler.readArtifact file with
  | none => exact .inl (by simp only [perform, loadFile_of_none h])
  | some image => exact .inr ⟨image, by simp only [perform, loadFile_of_image h]⟩

end Sys2Proof.Machine
end

