-- ==== Sys2Proof/Laws/Effects.lean ====
section
/-! SUPPORT. The effects of the operations in the terms of Safety.lean: operands resolved, word arithmetic, and what the
rotation and the spec's loops leave in each cell. -/

namespace Sys2Proof.Machine

theorem raise_eq_failed (f : FaultRecord) (s : State) : raise f s = s.failed f.cause f.info := rfl

/-- A completed instruction leaves the latch alone. -/
theorem Completes.fault_eq {i : Instr} {s t : State} (h : Completes i s t) : t.fault = s.fault := by
  cases h <;> simp [(rotateWindow_rest _ _).2.2.2.2.2.1]

/-- Every instruction with a level outside its interval. -/
theorem withOperand_outside {m : Mnemonic} {arg : Word} {lvl : Int} {s : State}
    {semantics : Word → Except FaultRecord State} (h : lvl < m.descriptor.min ∨ m.descriptor.max < lvl) :
    withOperand m arg lvl s semantics = .next (s.failed .invalidIndirection lvl) := by
  apply withOperand_illegal
  rw [Bool.eq_false_iff]
  intro h'
  rw [allowsLevel_iff] at h'
  omega

/-! ### Operands -/

theorem Operand.level {s : State} {lvl : Int} {arg v : Word} (h : Operand s lvl arg v) : 0 ≤ lvl ∧ lvl ≤ 2 := by
  rcases h with ⟨rfl, _⟩ | ⟨rfl, _⟩ | ⟨rfl, _⟩ <;> decide

theorem OperandFails.level {s : State} {lvl : Int} {arg : Word} {a : Int} (h : OperandFails s lvl arg a) :
    1 ≤ lvl ∧ lvl ≤ 2 := by
  rcases h with ⟨rfl | rfl, _⟩ | ⟨rfl, _⟩ <;> decide

theorem resolve_of_operand {m : Mnemonic} {s : State} {lvl : Int} {arg v : Word} (hb : m.descriptor.base = 0)
    (h : Operand s lvl arg v) : resolve m arg lvl s = .ok v := by
  rcases h with ⟨rfl, rfl⟩ | ⟨rfl, h, rfl⟩ | ⟨rfl, h, h2, rfl⟩
  · exact resolve_base hb.symm
  · exact resolve_one (by omega) h
  · exact resolve_two (by omega) h h2

theorem resolve_of_operandFails {m : Mnemonic} {s : State} {lvl : Int} {arg : Word} {a : Int}
    (hb : m.descriptor.base = 0) (h : OperandFails s lvl arg a) : resolve m arg lvl s = .error ⟨.outOfRange, a⟩ := by
  rcases h with ⟨hl, h, rfl⟩ | ⟨rfl, h, h2, rfl⟩
  · exact resolve_first_fails (by omega) h
  · exact resolve_second_fails (by omega) h h2

/-! ### Word arithmetic -/

theorem wordAdd_eq (a b : Word) : wordAdd a b = a + b := by simp [wordAdd, wrap, BitVec.ofInt_add]

theorem wordSub_eq (a b : Word) : wordSub a b = a - b := by
  apply BitVec.eq_of_toInt_eq
  simp [wordSub, wrap]

theorem wordMul_eq (a b : Word) : wordMul a b = a * b := by simp [wordMul, wrap, BitVec.ofInt_mul]

theorem wordDiv_eq (a b : Word) : wordDiv a b = a.sdiv b := by
  apply BitVec.eq_of_toInt_eq
  rw [BitVec.toInt_sdiv]
  simp [wordDiv, wrap]

/-! The configured policy (R104), function by function. -/

@[simp] theorem arithmetic_add (a b : Word) : Config.arithmetic.add a b = a + b := wordAdd_eq a b

@[simp] theorem arithmetic_sub (a b : Word) : Config.arithmetic.sub a b = a - b := wordSub_eq a b

@[simp] theorem arithmetic_mul (a b : Word) : Config.arithmetic.mul a b = a * b := wordMul_eq a b

@[simp] theorem arithmetic_div (a b : Word) : Config.arithmetic.div a b = a.sdiv b := wordDiv_eq a b

/-! ### ROT: the checks -/

theorem rotControl_of_block {s : State} {arg : Word} {a l m : Int} (h : ControlBlock s arg a l m) :
    rotControl arg.toInt s = .ok ⟨a, l, m⟩ := by
  obtain ⟨h0, h2, rfl, rfl, rfl⟩ := h
  exact rotControl_in h0 h2

theorem rotCheck_of_block {s : State} {arg : Word} {a l m : Int} (h : ControlBlock s arg a l m)
    (hv : ValidWindow arg.toInt a l) (ho : ¬ (s.config.rotMode = .compat ∧ m < 0 ∧ 1 ≤ l ∧ 511 < a + l)) :
    rotCheck arg.toInt s = .ok ⟨a, l, m⟩ := by
  have h1 := (RotControl.valid_iff ⟨a, l, m⟩ arg.toInt).2 hv
  have h2 : RotControl.overruns ⟨a, l, m⟩ s.config.rotMode = false := by
    rw [Bool.eq_false_iff]
    exact fun h => ho ((RotControl.overruns_iff _ _).1 h)
  simp [rotCheck, rotControl_of_block h, h1, h2]

theorem execRot_next {s : State} {arg : Word} {c : RotControl} (h : rotCheck arg.toInt s = .ok c) :
    execRot arg 0 s = .next (rotateWindow c s).freeScratch.advance :=
  withOperand_completes (v := arg) (by decide) (resolve_base rfl) (by rw [h])

theorem execRot_fails {s : State} {arg : Word} {f : FaultRecord} (h : rotCheck arg.toInt s = .error f) :
    execRot arg 0 s = .next (raise f s) :=
  withOperand_fails (v := arg) (by decide) (resolve_base rfl) (by rw [h])

/-- A checked rotation keeps memory canonical and the marker an address. -/
theorem rotateWindow_wf {c : RotControl} {s : State} {v : Int} (hc : rotCheck v s = .ok c) (h : s.mem.wf = true) :
    (rotateWindow c s).mem.wf = true ∧
    ((∀ a ∈ s.lastChanged, a < 512) → ∀ a ∈ (rotateWindow c s).lastChanged, a < 512) := by
  obtain ⟨_, hv, ho⟩ := rotCheck_ok hc
  have hv := (RotControl.valid_iff _ _).1 hv
  have ho : ¬ _ := fun h => by rw [(RotControl.overruns_iff _ _).2 h] at ho; cases ho
  unfold rotateWindow
  split
  · exact ⟨h, id⟩
  · next hne =>
    rcases lt_or_gt_of_ne (show c.shift ≠ 0 by tauto) with hneg | hpos
    · cases hm : s.config.rotMode with
      | fixed =>
        refine ⟨Memory.wf_writeBlock _ _ _ h ?_, ?_⟩
        · rw [length_rotated_left_fixed hneg, Memory.length_window]; omega
        · simp [RotControl.lastWrite, not_lt.2 hneg.le]; omega
      | compat =>
        rw [hm] at ho
        refine ⟨Memory.wf_writeBlock _ _ _ h ?_, ?_⟩
        · rw [length_rotated_left_compat hneg, Memory.length_window]; simp at ho; omega
        · simp [RotControl.lastWrite, not_lt.2 hneg.le]; simp at ho; omega
    · refine ⟨Memory.wf_writeBlock _ _ _ h ?_, ?_⟩
      · rw [length_rotated_right hpos, Memory.length_window]; omega
      · simp [RotControl.lastWrite, hpos]; omega

/-! ### ROT: what each cell holds -/

theorem rotateWindow_mem {s : State} {a l : Nat} {m : Int} (hm : m ≠ 0) (hl : 1 ≤ l) : (rotateWindow ⟨a, l, m⟩ s).mem = s.mem.writeBlock a (rotated s.config.rotMode m (s.mem.window a l)) := by
  unfold rotateWindow
  rw [if_neg (by simp; omega)]; simp

theorem rotateWindow_lastChanged {s : State} {a l : Nat} {m : Int} (hm : m ≠ 0) (hl : 1 ≤ l) : (rotateWindow ⟨a, l, m⟩ s).lastChanged = some (if 0 < m then a else match s.config.rotMode with | .fixed => a + l - 1 | .compat => a + l) := by
  unfold rotateWindow
  rw [if_neg (by simp; omega)]; simp [RotControl.lastWrite]
  split
  · rfl
  · cases s.config.rotMode <;> simp <;> omega

theorem read_rotateWindow_left_fixed {s : State} {a l : Nat} {m : Int} (hm : m < 0) (hl : 1 ≤ l) (hf : s.config.rotMode = .fixed) (b : Nat) :
   (rotateWindow ⟨a, l, m⟩ s).mem.read b = if a ≤ b ∧ b < a + l then s.mem.read (a + (b - a + m.natAbs) % l) else s.mem.read b := by
  rw [rotateWindow_mem (by omega) hl, Memory.read_writeBlock, hf, length_rotated_left_fixed hm, Memory.length_window]
  split
  · next h =>
    rw [getD_rotated_left_fixed hm (by simp; omega), Memory.length_window, Memory.getD_window _ _ _ _ (Nat.mod_lt _ (by omega))]
  · rfl

theorem read_rotateWindow_right {s : State} {a l : Nat} {m : Int} (hm : 0 < m) (hl : 1 ≤ l) (b : Nat) :
   (rotateWindow ⟨a, l, m⟩ s).mem.read b = if a ≤ b ∧ b < a + l then s.mem.read (a + (b - a + (l - m.natAbs % l)) % l) else s.mem.read b := by
  rw [rotateWindow_mem (by omega) hl, Memory.read_writeBlock, length_rotated_right hm, Memory.length_window]
  split
  · next h =>
    rw [getD_rotated_right hm (by simp; omega), Memory.length_window, Memory.getD_window _ _ _ _ (Nat.mod_lt _ (by omega))]
  · rfl

theorem read_rotateWindow_left_compat {s : State} {a l : Nat} {m : Int} (hm : m < 0) (hl : 1 ≤ l) (hf : s.config.rotMode = .compat) (b : Nat) :
   (rotateWindow ⟨a, l, m⟩ s).mem.read b = if a ≤ b ∧ b < a + l then s.mem.read (a + min (b - a + m.natAbs) (l - 1)) else if b = a + l then s.mem.read (a + min (m.natAbs - 1) (l - 1)) else s.mem.read b := by
  rw [rotateWindow_mem (by omega) hl, Memory.read_writeBlock, hf, length_rotated_left_compat hm, Memory.length_window]
  by_cases h : a ≤ b ∧ b < a + l
  · rw [if_pos (by omega), if_pos h, getD_rotated_left_compat hm (by simp; omega), Memory.length_window, Memory.getD_window _ _ _ _ (by omega)]
  · rw [if_neg h]
    by_cases h2 : b = a + l
    · subst h2
      rw [if_pos (by omega), if_pos rfl]
      have := getD_rotated_left_compat_last (w := s.mem.window a l) hm
      rw [Memory.length_window] at this
      rw [show a + l - a = l by omega, this, Memory.getD_window _ _ _ _ (by omega)]
    · rw [if_neg (by omega), if_neg h2]

theorem read_repeat_rotateLeftOne (a l n : Nat) (s : State) (hl : 1 ≤ l) (b : Nat) : (repeatTimes n (rotateLeftOne a l) s).mem.read b = if a ≤ b ∧ b < a + l then s.mem.read (a + (b - a + n) % l) else s.mem.read b := by
  induction n generalizing b with
  | zero =>
    simp only [repeatTimes]; split
    · rw [Nat.add_zero, Nat.mod_eq_of_lt (by omega)]; congr 1; omega
    · rfl
  | succ n ih =>
    rw [repeatTimes_succ, rotateLeftOne_read _ _ _ _ hl]
    simp only [ih]
    by_cases h1 : b = a + l - 1
    · subst h1
      rw [if_pos rfl, if_pos (by omega), if_pos (by omega)]
      congr 2
      have : a + l - 1 - a + (n + 1) = l + n := by omega
      rw [this, Nat.add_mod_left]; simp
    · rw [if_neg h1]
      by_cases h2 : a ≤ b ∧ b < a + l - 1
      · rw [if_pos h2, if_pos (by omega), if_pos (by omega)]
        congr 3; omega
      · rw [if_neg h2, if_neg (by omega), if_neg (by omega)]

theorem read_repeat_rotateRightOne (a l n : Nat) (s : State) (hl : 1 ≤ l) (b : Nat) : (repeatTimes n (rotateRightOne a l) s).mem.read b = if a ≤ b ∧ b < a + l then s.mem.read (a + (b - a + (l - n % l)) % l) else s.mem.read b := by
  induction n generalizing b with
  | zero =>
    simp only [repeatTimes]; split
    · rw [Nat.zero_mod, Nat.sub_zero, Nat.add_mod_right, Nat.mod_eq_of_lt (by omega)]; congr 1; omega
    · rfl
  | succ n ih =>
    rw [repeatTimes_succ, rotateRightOne_read _ _ _ _ hl]
    simp only [ih]
    have hk : n % l < l := Nat.mod_lt _ (by omega)
    have hs : (n + 1) % l = if n % l + 1 = l then 0 else n % l + 1 := by
      rw [Nat.add_mod]
      rcases Nat.lt_or_ge 1 l with h | h
      · rw [Nat.mod_eq_of_lt h]
        split
        · next h' => rw [h', Nat.mod_self]
        · rw [Nat.mod_eq_of_lt (by omega)]
      · have : l = 1 := by omega
        subst this; simp [Nat.mod_one]
    rw [hs]
    generalize n % l = k at hk
    by_cases h1 : b = a
    · subst h1
      rw [if_pos rfl, if_pos (by omega), if_pos (by omega)]
      congr 2
      split
      · next h =>
        have e1 : b + l - 1 - b + (l - k) = l := by omega
        have e2 : b - b + (l - 0) = l := by omega
        rw [e1, e2]
      · have e1 : b + l - 1 - b + (l - k) = l + (l - 1 - k) := by omega
        have e2 : b - b + (l - (k + 1)) = l - 1 - k := by omega
        rw [e1, e2, Nat.add_mod_left]
    · rw [if_neg h1]
      by_cases h2 : a < b ∧ b ≤ a + l - 1
      · rw [if_pos h2, if_pos (by omega), if_pos (by omega)]
        congr 2
        split
        · have e1 : b - 1 - a + (l - k) = b - a := by omega
          rw [e1]; simp
        · congr 1; omega
      · rw [if_neg h2, if_neg (by omega), if_neg (by omega)]

theorem read_repeat_rotateLeftOneCompat (a l n : Nat) (s : State) (hl : 1 ≤ l) (b : Nat) : (repeatTimes (n+1) (rotateLeftOneCompat a l) s).mem.read b = if a ≤ b ∧ b < a + l then s.mem.read (a + min (b - a + (n+1)) (l-1)) else if b = a + l then s.mem.read (a + min n (l - 1)) else s.mem.read b := by
  induction n generalizing b with
  | zero =>
    simp only [repeatTimes, rotateLeftOneCompat_read _ _ _ _ hl]
    by_cases h1 : b = a + l
    · subst h1; rw [if_pos rfl, if_neg (by omega), if_pos rfl]; simp
    · rw [if_neg h1]
      by_cases h2 : a ≤ b ∧ b < a + l - 1
      · rw [if_pos h2, if_pos (by omega)]; congr 1; omega
      · rw [if_neg h2]
        by_cases h3 : b = a + l - 1
        · rw [if_pos (by omega)]; congr 1; omega
        · rw [if_neg (by omega), if_neg h1]
  | succ n ih =>
    rw [repeatTimes_succ, rotateLeftOneCompat_read _ _ _ _ hl]
    simp only [ih]
    by_cases h1 : b = a + l
    · subst h1; rw [if_pos rfl, if_pos (by omega), if_neg (by omega), if_pos rfl]; congr 1; omega
    · rw [if_neg h1]
      by_cases h2 : a ≤ b ∧ b < a + l - 1
      · rw [if_pos h2, if_pos (by omega), if_pos (by omega)]; congr 1; omega
      · rw [if_neg h2]
        by_cases h3 : b = a + l - 1
        · rw [if_pos (by omega), if_pos (by omega)]; congr 1; omega
        · rw [if_neg (by omega), if_neg (by omega), if_neg h1, if_neg (by omega)]

end Sys2Proof.Machine
end

