-- ==== Sys2Proof/Laws/PerInstr.lean ====
section
/-! SUPPORT. The statements made of each instruction as syntax, one lemma per constructor. -/

namespace Sys2Proof.Laws.RoundTrip

/-- Decoding the slot of an instruction gives it back, with its argument and its level (R50, R55). -/
def Statement (i : Instr) : Prop := decode (encode i) = .ok i

theorem nop (arg : Word) (lvl : Int) : Statement (.nop arg lvl) := rfl
theorem lod (arg : Word) (lvl : Int) : Statement (.lod arg lvl) := rfl
theorem sto (arg : Word) (lvl : Int) : Statement (.sto arg lvl) := rfl
theorem add (arg : Word) (lvl : Int) : Statement (.add arg lvl) := rfl
theorem sub (arg : Word) (lvl : Int) : Statement (.sub arg lvl) := rfl
theorem mul (arg : Word) (lvl : Int) : Statement (.mul arg lvl) := rfl
theorem div (arg : Word) (lvl : Int) : Statement (.div arg lvl) := rfl
theorem and (arg : Word) (lvl : Int) : Statement (.and arg lvl) := rfl
theorem not (arg : Word) (lvl : Int) : Statement (.not arg lvl) := rfl
theorem cmpz (arg : Word) (lvl : Int) : Statement (.cmpz arg lvl) := rfl
theorem cmpl (arg : Word) (lvl : Int) : Statement (.cmpl arg lvl) := rfl
theorem jump (arg : Word) (lvl : Int) : Statement (.jump arg lvl) := rfl
theorem jmpz (arg : Word) (lvl : Int) : Statement (.jmpz arg lvl) := rfl
theorem halt (arg : Word) (lvl : Int) : Statement (.halt arg lvl) := rfl
theorem rot (arg : Word) (lvl : Int) : Statement (.rot arg lvl) := rfl

end Sys2Proof.Laws.RoundTrip
end

