-- ==== Sys2Proof/Laws/Related.lean ====
section
/-! SUPPORT. Two machines that differ in host-only state take the same course: the same failure, or completions that
again differ in host-only state. -/

namespace Sys2Proof.Machine

theorem withOperand_related {m : Mnemonic} {arg : Word} {lvl : Int} {s s' : State}
    {sem sem' : Word → Except FaultRecord State} (R : State → State → Prop) (hm : s.mem = s'.mem)
    (h : ∀ v, (∃ f, sem v = .error f ∧ sem' v = .error f) ∨
      (∃ t t', sem v = .ok t ∧ sem' v = .ok t' ∧ R t t')) :
    (∃ f, withOperand m arg lvl s sem = .next (raise f s) ∧ withOperand m arg lvl s' sem' = .next (raise f s')) ∨
    (∃ t t', withOperand m arg lvl s sem = .next t ∧ withOperand m arg lvl s' sem' = .next t' ∧ R t t') := by
  by_cases ha : m.allowsLevel lvl = true
  · have hr : resolve m arg lvl s = resolve m arg lvl s' := dereference_congr _ _ hm
    cases hv : resolve m arg lvl s' with
    | error f => exact .inl ⟨f, withOperand_unresolved ha (hr.trans hv), withOperand_unresolved ha hv⟩
    | ok v =>
      rcases h v with ⟨f, h1, h2⟩ | ⟨t, t', h1, h2, hR⟩
      · exact .inl ⟨f, withOperand_fails ha (hr.trans hv) h1, withOperand_fails ha hv h2⟩
      · exact .inr ⟨t, t', withOperand_completes ha (hr.trans hv) h1, withOperand_completes ha hv h2, hR⟩
  · have ha' : m.allowsLevel lvl = false := by simpa using ha
    exact .inl ⟨_, withOperand_illegal ha', withOperand_illegal ha'⟩

/-- The rotation of two machines that agree on memory and configuration. -/
theorem rotateWindow_mem_congr (c : RotControl) {s s' : State} (hm : s.mem = s'.mem) (hc : s.config = s'.config) :
    (rotateWindow c s).mem = (rotateWindow c s').mem := by
  unfold rotateWindow
  split
  · exact hm
  · simp [hm, hc]

theorem sameForPrograms_unlatched (s : State) : SameForPrograms s s.unlatched := ⟨rfl, rfl, rfl, rfl, rfl, rfl, rfl⟩

/-- What relates the completions of one instruction in two machines. -/
def RelatedCompletions (s s' t t' : State) : Prop :=
  SameForPrograms t t' ∧ t.fault = s.fault ∧ t'.fault = s'.fault

theorem exec_related (i : Instr) {s s' : State} (h : SameForPrograms s s') :
    (∃ f, exec i s = .next (raise f s) ∧ exec i s' = .next (raise f s')) ∨
    (∃ t t', exec i s = .next t ∧ exec i s' = .next t' ∧ RelatedCompletions s s' t t') := by
  obtain ⟨hacc, hpc, hmem, hcode, hrun, hterm, hcfg⟩ := h
  cases i with
  | nop arg lvl =>
    exact withOperand_related _ hmem fun v => .inr ⟨_, _, rfl, rfl, by simp [RelatedCompletions, SameForPrograms, *]⟩
  | lod arg lvl =>
    exact withOperand_related _ hmem fun v => .inr ⟨_, _, rfl, rfl, by simp [RelatedCompletions, SameForPrograms, *]⟩
  | add arg lvl =>
    exact withOperand_related _ hmem fun v => .inr ⟨_, _, rfl, rfl, by simp [RelatedCompletions, SameForPrograms, *]⟩
  | sub arg lvl =>
    exact withOperand_related _ hmem fun v => .inr ⟨_, _, rfl, rfl, by simp [RelatedCompletions, SameForPrograms, *]⟩
  | mul arg lvl =>
    exact withOperand_related _ hmem fun v => .inr ⟨_, _, rfl, rfl, by simp [RelatedCompletions, SameForPrograms, *]⟩
  | and arg lvl =>
    exact withOperand_related _ hmem fun v => .inr ⟨_, _, rfl, rfl, by simp [RelatedCompletions, SameForPrograms, *]⟩
  | not arg lvl =>
    exact withOperand_related _ hmem fun v => .inr ⟨_, _, rfl, rfl, by simp [RelatedCompletions, SameForPrograms, *]⟩
  | jump arg lvl =>
    exact withOperand_related _ hmem fun v => .inr ⟨_, _, rfl, rfl, by simp [RelatedCompletions, SameForPrograms, *]⟩
  | halt arg lvl =>
    exact withOperand_related _ hmem fun v => .inr ⟨_, _, rfl, rfl, by simp [RelatedCompletions, SameForPrograms, *]⟩
  | jmpz arg lvl =>
    refine withOperand_related _ hmem fun v => .inr ⟨_, _, rfl, rfl, ?_⟩
    rw [← hacc]
    split <;> simp [RelatedCompletions, SameForPrograms, *]
  | div arg lvl =>
    refine withOperand_related _ hmem fun v => ?_
    split
    · exact .inl ⟨_, rfl, rfl⟩
    · exact .inr ⟨_, _, rfl, rfl, by simp [RelatedCompletions, SameForPrograms, *]⟩
  | sto arg lvl =>
    refine withOperand_related _ hmem fun v => ?_
    by_cases hb : 0 ≤ v.toInt ∧ v.toInt < 512
    · rw [memWrite_in hb, memWrite_in hb]
      exact .inr ⟨_, _, rfl, rfl, by simp [RelatedCompletions, SameForPrograms, *]⟩
    · rw [memWrite_out hb, memWrite_out hb]
      exact .inl ⟨_, rfl, rfl⟩
  | cmpz arg lvl =>
    refine withOperand_related _ hmem fun v => ?_
    rw [memRead_congr _ hmem]
    cases memRead v.toInt s' with
    | error f => exact .inl ⟨f, rfl, rfl⟩
    | ok w => exact .inr ⟨_, _, rfl, rfl, by simp [RelatedCompletions, SameForPrograms, *]⟩
  | cmpl arg lvl =>
    refine withOperand_related _ hmem fun v => ?_
    rw [memRead_congr _ hmem]
    cases memRead v.toInt s' with
    | error f => exact .inl ⟨f, rfl, rfl⟩
    | ok w => exact .inr ⟨_, _, rfl, rfl, by simp [RelatedCompletions, SameForPrograms, *]⟩
  | rot arg lvl =>
    refine withOperand_related _ hmem fun v => ?_
    rw [rotCheck_congr _ hmem hcfg]
    cases rotCheck v.toInt s' with
    | error f => exact .inl ⟨f, rfl, rfl⟩
    | ok c =>
      refine .inr ⟨_, _, rfl, rfl, ?_⟩
      obtain ⟨h1, h2, h3, h4, h5, h6, h7, -, -⟩ := rotateWindow_rest c s
      obtain ⟨k1, k2, k3, k4, k5, k6, k7, -, -⟩ := rotateWindow_rest c s'
      simp [RelatedCompletions, SameForPrograms, rotateWindow_mem_congr c hmem hcfg, *]

end Sys2Proof.Machine
end

