-- ==== Sys2Proof/Laws/Word.lean ====
section
/-! SUPPORT. The range of a word in numerals, so that a proof need not look into `Config.wordBits`. -/

namespace Sys2Proof

theorem Config.wordBits_eq : Config.wordBits = 32 := rfl

theorem Config.maxCodeCapacity_eq : Config.maxCodeCapacity = 2147483647 := rfl

/-- The unsigned range of a word. -/
theorem Word.toNat_lt (w : Word) : w.toNat < 4294967296 := w.isLt

/-- The signed range of a word (R7). -/
theorem Word.toInt_range (w : Word) : -2147483648 ≤ w.toInt ∧ w.toInt < 2147483648 := by
  have h : w.toNat < 4294967296 := w.isLt
  have he : w.toInt = if 2 * w.toNat < 4294967296 then (w.toNat : Int) else (w.toNat : Int) - 4294967296 := rfl
  rw [he]
  split <;> omega

/-- The successor of a word below the largest one. -/
theorem Word.toInt_succ (w : Word) (h : w.toInt < 2147483647) : (w + 1).toInt = w.toInt + 1 := by
  have hr := w.toInt_range
  have h1 : (1 : Word).toInt = 1 := by decide
  rw [BitVec.toInt_add, h1]
  show (w.toInt + 1).bmod 4294967296 = w.toInt + 1
  exact Int.bmod_eq_of_le_mul_two (by omega) (by omega)

end Sys2Proof
end

