-- ==== Sys2Proof/Tests/Slice0.lean ====
section
/-! SUPPORT. Small tests, their expected results from the spec's vectors (95_test_vectors.md, named V or S) and tables, and
for each statement with hypotheses a witness that meets them. -/

namespace Sys2Proof.Tests

open Sys2Proof.Machine Sys2Proof.Assembler

/-- A running machine with one slot at position 0. -/
def machine (slot : Slot) (acc : Word) (mem : Memory) : State :=
  { State.reset with code := [slot], acc := acc, mem := mem, running := true }

/-- The same machine in compat mode. -/
def compat (s : State) : State := { s with config := { s.config with rotMode := .compat } }

/-- The same machine in batch mode. -/
def batch (s : State) : State := { s with config := { s.config with haltMode := .batch } }

/-- The state an outcome answers, if it is a next state. -/
def answered : Result → Option State
  | .next t => some t
  | .fault _ => none
  | .refused _ => none

/-- An outcome that answers a state is that next state. -/
theorem next_of_answered {o : Result} {t : State} (h : answered o = some t) : o = .next t := by
  cases o with
  | next u => exact congrArg _ (Option.some.inj h)
  | fault f => cases f
  | refused r => cases h

/-- Lines of text. -/
def lines (texts : List String) : List Line := texts.map fun t => t.toList

/-! ### Well-formedness: one check, its lower and its upper side -/

theorem test_wellFormed_refuses_below : (Instr.sto 5 0).wellFormed = false ∧ (Instr.cmpz 5 0).wellFormed = false ∧
    (Instr.cmpl 5 0).wellFormed = false ∧ (Instr.lod 5 (-1)).wellFormed = false := by decide

theorem test_wellFormed_refuses_above : (Instr.lod 5 3).wellFormed = false ∧ (Instr.and 5 2).wellFormed = false ∧
    (Instr.jump 5 2).wellFormed = false ∧ (Instr.jmpz 5 2).wellFormed = false ∧ (Instr.nop 5 1).wellFormed = false ∧
    (Instr.not 5 1).wellFormed = false ∧ (Instr.halt 5 1).wellFormed = false ∧ (Instr.rot 5 1).wellFormed = false ∧
    (Instr.cmpz 5 2).wellFormed = false ∧ (Instr.cmpl 5 2).wellFormed = false ∧ (Instr.sto 5 3).wellFormed = false := by
  decide

theorem test_wellFormed_accepts : (Instr.sto 5 2).wellFormed = true ∧ (Instr.and 5 1).wellFormed = true ∧
    (Instr.rot 5 0).wellFormed = true ∧ (Instr.cmpl 5 1).wellFormed = true ∧ (Instr.div 5 2).wellFormed = true := by
  decide

/-! ### Decoding: the slot and the code line of each opcode, written out from R55 -/

theorem test_decode_nop : decode ⟨0x0, 0, 0⟩ = .ok (.nop 0 0) ∧ readCodeLine "0 0 0".toList = some ⟨0x0, 0, 0⟩ := by
  decide
theorem test_decode_lod : decode ⟨0x1, 0x1A, 2⟩ = .ok (.lod 0x1A 2) ∧
    readCodeLine "1 1A 2".toList = some ⟨0x1, 0x1A, 2⟩ := by decide
theorem test_decode_sto : decode ⟨0x2, 0x10, 1⟩ = .ok (.sto 0x10 1) ∧
    readCodeLine "2 10 1".toList = some ⟨0x2, 0x10, 1⟩ := by decide
theorem test_decode_add : decode ⟨0x3, 5, 0⟩ = .ok (.add 5 0) ∧ readCodeLine "3 5 0".toList = some ⟨0x3, 5, 0⟩ := by
  decide
theorem test_decode_sub : decode ⟨0x4, 0, 1⟩ = .ok (.sub 0 1) ∧ readCodeLine "4 0 1".toList = some ⟨0x4, 0, 1⟩ := by
  decide
theorem test_decode_mul : decode ⟨0x5, 0x1FF, 2⟩ = .ok (.mul 0x1FF 2) ∧
    readCodeLine "5 1FF 2".toList = some ⟨0x5, 0x1FF, 2⟩ := by decide
theorem test_decode_div : decode ⟨0x6, 0x1A, 0⟩ = .ok (.div 0x1A 0) ∧
    readCodeLine "6 1A 0".toList = some ⟨0x6, 0x1A, 0⟩ := by decide
theorem test_decode_and : decode ⟨0x7, 3, 1⟩ = .ok (.and 3 1) ∧ readCodeLine "7 3 1".toList = some ⟨0x7, 3, 1⟩ := by
  decide
theorem test_decode_not : decode ⟨0x8, 0, 0⟩ = .ok (.not 0 0) ∧ readCodeLine "8 0 0".toList = some ⟨0x8, 0, 0⟩ := by
  decide
theorem test_decode_cmpz : decode ⟨0x9, 0x10, 1⟩ = .ok (.cmpz 0x10 1) ∧
    readCodeLine "9 10 1".toList = some ⟨0x9, 0x10, 1⟩ := by decide
theorem test_decode_cmpl : decode ⟨0xA, 0x10, 1⟩ = .ok (.cmpl 0x10 1) ∧
    readCodeLine "A 10 1".toList = some ⟨0xA, 0x10, 1⟩ := by decide
theorem test_decode_jump : decode ⟨0xB, 0x30, 1⟩ = .ok (.jump 0x30 1) ∧
    readCodeLine "B 30 1".toList = some ⟨0xB, 0x30, 1⟩ := by decide
theorem test_decode_jmpz : decode ⟨0xC, 8, 0⟩ = .ok (.jmpz 8 0) ∧ readCodeLine "C 8 0".toList = some ⟨0xC, 8, 0⟩ := by
  decide
theorem test_decode_halt : decode ⟨0xF, 0, 0⟩ = .ok (.halt 0 0) ∧ readCodeLine "F 0 0".toList = some ⟨0xF, 0, 0⟩ := by
  decide
theorem test_decode_rot : decode ⟨0x14, 0x30, 0⟩ = .ok (.rot 0x30 0) ∧
    readCodeLine "14 30 0".toList = some ⟨0x14, 0x30, 0⟩ := by decide

/-- The opcodes next to the assigned ones (R56). -/
theorem test_decode_refuses : decode ⟨0xD, 0, 0⟩ = .error (.unknownOpcode 0xD) ∧
    decode ⟨0xE, 0, 0⟩ = .error (.unknownOpcode 0xE) ∧ decode ⟨0x10, 0, 0⟩ = .error (.unknownOpcode 0x10) ∧
    decode ⟨0x13, 0, 0⟩ = .error (.unknownOpcode 0x13) ∧ decode ⟨0x15, 0, 0⟩ = .error (.unknownOpcode 0x15) ∧
    decode ⟨0x10001, 0, 0⟩ = .error (.unknownOpcode 0x10001) := by decide

/-! ### The host's questions -/

theorem test_table_word : decodeTableWord 32 5 = some (.mul 0 0) ∧ decodeTableWord 32 0x14 = some (.rot 0 0) ∧
    decodeTableWord 32 0xD = none ∧ decodeTableWord 64 0x1A00000001 = some (.lod 0x1A 0) := by decide

theorem test_withFetchWord : answered (step (State.reset.withFetchWord 64 0x500000003)) =
    some { State.reset with code := [⟨0x3, 5, 0⟩], running := true, acc := 5, pc := 1 } := by decide

/-! ### One step of each instruction -/

/-- V28. -/
theorem test_nop_ignores_argument : (stepState (machine ⟨0x0, 99, 0⟩ 7 [])).pc = 1 ∧
    (stepState (machine ⟨0x0, 99, 0⟩ 7 [])).acc = 7 := by decide

/-- V17. -/
theorem test_lod_indirect : (stepState (machine ⟨0x1, 0x20, 2⟩ 0 [(0x20, 0x21), (0x21, -7)])).acc = -7 := by decide

/-- V21. -/
theorem test_lod_second_access_fails :
    stepStatus (machine ⟨0x1, 0x30, 2⟩ 7 [(0x30, 600)]) = .fault ⟨.outOfRange, 600⟩ := by decide

/-- V19. -/
theorem test_sto_indirect : (stepState (machine ⟨0x2, 0x22, 2⟩ 9 [(0x22, 0x23)])).mem = [(0x22, 0x23), (0x23, 9)] ∧
    (stepState (machine ⟨0x2, 0x22, 2⟩ 9 [(0x22, 0x23)])).lastChanged = some 0x23 := by decide

/-- V33. -/
theorem test_sto_out_of_range : answered (step (machine ⟨0x2, 512, 1⟩ 9 [])) =
    some ((machine ⟨0x2, 512, 1⟩ 9 []).failed .outOfRange 512) := by decide

/-- V35. -/
theorem test_add_wraps : (stepState (machine ⟨0x3, 1, 0⟩ 2147483647 [])).acc = -2147483648 := by decide

/-- V60. -/
theorem test_add_indirect : (stepState (machine ⟨0x3, 0x20, 2⟩ 10 [(0x20, 0x21), (0x21, -7)])).acc = 3 := by decide

/-- V40. -/
theorem test_sub_order : (stepState (machine ⟨0x4, 10, 0⟩ 3 [])).acc = -7 := by decide

/-- V42. -/
theorem test_sub_min : (stepState (machine ⟨0x4, -2147483648, 0⟩ 0 [])).acc = -2147483648 := by decide

/-- V47. -/
theorem test_mul_reduces : (stepState (machine ⟨0x5, 0x10001, 0⟩ 0x10001 [])).acc = 0x20001 := by decide

/-- V43. -/
theorem test_mul_signed : (stepState (machine ⟨0x5, 3, 0⟩ (-7) [])).acc = -21 := by decide

/-- V49, V50, V54. -/
theorem test_div_truncates : (stepState (machine ⟨0x6, 2, 0⟩ (-7) [])).acc = -3 ∧
    (stepState (machine ⟨0x6, -2, 0⟩ 7 [])).acc = -3 ∧
    (stepState (machine ⟨0x6, -1, 0⟩ (-2147483648) [])).acc = -2147483648 := by decide

/-- V58: the divisor is tested after both dereferences. -/
theorem test_div_by_zero : answered (step (machine ⟨0x6, 0x20, 2⟩ 8 [(0x20, 0x21)])) =
    some ((machine ⟨0x6, 0x20, 2⟩ 8 [(0x20, 0x21)]).failed .arithmeticError 0) := by decide

/-- V61. -/
theorem test_and_logical : (stepState (machine ⟨0x7, 4, 0⟩ 2 [])).acc = 1 := by decide

/-- V63. -/
theorem test_and_direct : (stepState (machine ⟨0x7, 0x21, 1⟩ 1 [])).acc = 0 := by decide

/-- V66, V65. -/
theorem test_not_logical : (stepState (machine ⟨0x8, 0, 0⟩ (-3) [])).acc = 0 ∧
    (stepState (machine ⟨0x8, 0, 0⟩ 0 [])).acc = 1 := by decide

/-- V68, V69. -/
theorem test_cmpz : (stepState (machine ⟨0x9, 0x23, 1⟩ 77 [])).acc = 1 ∧
    (stepState (machine ⟨0x9, 0x23, 1⟩ 77 [(0x23, -10)])).acc = 0 := by decide

/-- V71. -/
theorem test_cmpl : (stepState (machine ⟨0xA, 0x23, 1⟩ 0 [(0x23, 2147483647)])).acc = 0 ∧
    (stepState (machine ⟨0xA, 0x23, 1⟩ 0 [(0x23, -2147483648)])).acc = 1 := by decide

/-- V75: the first step completes, the second finds no slot. -/
theorem test_jump_unchecked : stepStatus (machine ⟨0xB, 9, 0⟩ 0 []) = .ok ∧
    stepStatus (stepState (machine ⟨0xB, 9, 0⟩ 0 [])) = .fault ⟨.fetchOutOfRange, 9⟩ := by decide

/-- V74. -/
theorem test_jump_direct : (stepState (machine ⟨0xB, 0x30, 1⟩ 0 [(0x30, 4)])).pc = 4 := by decide

/-- V77, V78. -/
theorem test_jmpz : (stepState (machine ⟨0xC, 8, 0⟩ 0 [])).pc = 8 ∧
    (stepState (machine ⟨0xC, 8, 0⟩ (-1) [])).pc = 1 := by decide

/-- V25. -/
theorem test_jmpz_reads_its_pointer :
    stepStatus (machine ⟨0xC, 600, 1⟩ 5 []) = .fault ⟨.outOfRange, 600⟩ := by decide

/-- V80. -/
theorem test_halt_interactive : answered (step (machine ⟨0xF, 0, 0⟩ 0 [])) =
    some { machine ⟨0xF, 0, 0⟩ 0 [] with running := false } ∧ stepStatus (machine ⟨0xF, 0, 0⟩ 0 []) = .halted := by
  decide

/-- V81. -/
theorem test_halt_batch : (stepState (batch (machine ⟨0xF, 0, 0⟩ 0 []))).terminated = true ∧
    stepStatus (batch (machine ⟨0xF, 0, 0⟩ 0 [])) = .halted := by decide

/-- The control block and the window of section 2.7. -/
def window (start length shift : Word) : State :=
  machine ⟨0x14, 0x30, 0⟩ 0 ([(0x30, start), (0x31, length), (0x32, shift)].filter (fun c => c.2 != 0) ++
    [(0x40, 1), (0x41, 2), (0x42, 3), (0x43, 4), (0x44, 5)])

/-- V90, V92, V96. -/
theorem test_rot_fixed : (stepState (window 0x40 5 (-1))).mem.drop 3 =
      [(0x40, 2), (0x41, 3), (0x42, 4), (0x43, 5), (0x44, 1)] ∧
    (stepState (window 0x40 5 2)).mem.drop 3 = [(0x40, 4), (0x41, 5), (0x42, 1), (0x43, 2), (0x44, 3)] ∧
    (stepState (window 0x40 5 (-2147483648))).mem.drop 3 =
      [(0x40, 4), (0x41, 5), (0x42, 1), (0x43, 2), (0x44, 3)] ∧
    (stepState (window 0x40 5 (-2147483648))).lastChanged = some 0x44 := by decide

/-- V102, V107. -/
theorem test_rot_compat : (stepState (compat (window 0x40 5 (-2)))).mem.drop 3 =
      [(0x40, 3), (0x41, 4), (0x42, 5), (0x43, 5), (0x44, 5), (0x45, 2)] ∧
    stepStatus (compat (window 507 5 (-1))) = .fault ⟨.outOfRange, 512⟩ ∧
    stepStatus (window 507 5 (-1)) = .ok := by decide

/-- V108, V111, V120, V122. -/
theorem test_rot_refuses_windows : stepStatus (window 508 5 1) = .fault ⟨.rangeError, 0x30⟩ ∧
    stepStatus (window 0x2E 3 1) = .fault ⟨.rangeError, 0x30⟩ ∧
    stepStatus (window 2147483647 2147483647 1) = .fault ⟨.rangeError, 0x30⟩ ∧
    stepStatus (machine ⟨0x14, 511, 0⟩ 0 []) = .fault ⟨.outOfRange, 512⟩ := by decide

/-! ### The machine and the host -/

/-- V8, V14: lookup before the level, the level before every access. -/
theorem test_priority : stepStatus (machine ⟨0xD, 600, 7⟩ 0 []) = .fault ⟨.unknownOpcode, 0xD⟩ ∧
    stepStatus (machine ⟨0x2, 600, 0⟩ 0 []) = .fault ⟨.invalidIndirection, 0⟩ := by decide

/-- V4, V5. -/
theorem test_fetch_out_of_range :
    stepStatus { machine ⟨0x0, 0, 0⟩ 0 [] with pc := -1 } = .fault ⟨.fetchOutOfRange, -1⟩ ∧
    stepStatus (perform .start State.reset) = .fault ⟨.fetchOutOfRange, 0⟩ := by decide

/-- V87, V88, V89. -/
theorem test_start_and_clear :
    (perform .start ((machine ⟨0x0, 0, 0⟩ 10 []).failed .arithmeticError 0)).running = false ∧
    perform .clear ((machine ⟨0x0, 0, 0⟩ 10 [(5, 6), (511, 6)]).failed .arithmeticError 0) =
      { machine ⟨0x0, 0, 0⟩ 0 [(511, 6)] with running := false } := by decide

/-- The failure codes of R200. -/
theorem test_cause_codes : Cause.fetchOutOfRange.code = 1 ∧ Cause.unknownOpcode.code = 2 ∧
    Cause.invalidIndirection.code = 3 ∧ Cause.outOfRange.code = 4 ∧ Cause.arithmeticError.code = 5 ∧
    Cause.rangeError.code = 6 := by decide

/-! ### The assembler -/

/-- S2, S11. -/
theorem test_assemble : (assemble (lines ["LOD 1A", "LOD [1A]", "LOD [[1A]]"])).code =
      lines ["1 1A 0", "1 1A 1", "1 1A 2"] ∧
    (assemble (lines ["HALT", "DATA", "1A 2F"])).artifact = some (lines ["F 0 0", "-1", "1A 2F"]) := by decide

/-- S12, V150, V154, V157. -/
theorem test_assemble_errors :
    (assemble (lines ["HALT", "DATA", "1A 2F", "1B ZZ"])).report = [(4, .dataNotHex)] ∧
    (assemble (lines [" lod 1"])).report = [(1, .mnemonicNotUppercase)] ∧
    (assemble (lines ["LOD 1", "", "HALT", "DATA", "10 5"])).report = [(2, .illegalBlankLine)] ∧
    (assemble (lines ["HALT", "Data", "10 5"])).report = [(2, .dataNotCapitalized)] := by decide

/-- V139, V142, V143, V137. -/
theorem test_encode_errors : encodeLine "LOD [1A".toList = .error .directNotHex ∧
    encodeLine "AND [[1G]]".toList = .error .indirectNotAllowed ∧
    encodeLine "STO 1G".toList = .error .immediateNotAllowed ∧
    encodeLine "LOD 100000000".toList = .error .immediateNotHex := by decide

/-- V163: the last data line for an address wins. -/
theorem test_load : (loadImage ⟨[⟨0xF, 0, 0⟩], [(5, 1), (5, 2)]⟩ State.reset).state.mem = [(5, 2)] := by decide

/-- R233: lines whose level or opcode the engine rejects are loaded as they are. -/
theorem test_load_unchecked : readCodeLine "1 0 3".toList = some ⟨0x1, 0, 3⟩ ∧
    readCodeLine "1 0 -1".toList = some ⟨0x1, 0, -1⟩ ∧ readCodeLine "D 258 7".toList = some ⟨0xD, 600, 7⟩ ∧
    readCodeLine "1 0 X".toList = none := by decide

/-- V9: it is the engine that rejects the level, when the slot is fetched. -/
theorem test_loaded_level_fails_at_step :
    stepStatus (perform .start (perform (.loadFile (lines ["1 0 3", "-1"])) State.reset)) =
      .fault ⟨.invalidIndirection, 3⟩ := by decide

/-- An unopenable input is reported at key 0 (R177). -/
theorem test_entry : assembleEntry none true [] = ⟨[(0, .artifactUnopenable)], none, false⟩ := by decide

/-! ### Witnesses: states and operands that meet the hypotheses of each statement -/

/-- A machine with the cells the operand witnesses use. -/
def sample (slot : Slot) : State := machine slot 9 [(0x20, 0x21), (0x21, -7), (0x22, 511), (0x30, 600), (511, 4)]

theorem witness_StepRunsTheDecodedInstruction :
    Fetches (sample ⟨0x1, 0x20, 2⟩) ⟨0x1, 0x20, 2⟩ ∧ decode ⟨0x1, 0x20, 2⟩ = .ok (.lod 0x20 2) := by decide

theorem witness_GatedStepChangesNothing : State.reset.terminated = false ∧ State.reset.running = false ∧
    (stepState (batch (machine ⟨0xF, 0, 0⟩ 0 []))).terminated = true ∧ Command.step ≠ .start := by decide

theorem witness_FetchReadsTheSlotAtPc :
    (0 ≤ (sample ⟨0x0, 0, 0⟩).pc.toInt ∧
      (sample ⟨0x0, 0, 0⟩).code[(sample ⟨0x0, 0, 0⟩).pc.toInt.toNat]? = some ⟨0x0, 0, 0⟩) ∧
    ((-1 : Word).toInt < 0 ∧ ((sample ⟨0x0, 0, 0⟩).code.length : Int) ≤ (1 : Word).toInt) := by decide

theorem witness_UnknownOpcodeFails : Fetches (sample ⟨0xD, 0, 0⟩) ⟨0xD, 0, 0⟩ ∧
    Fetches (sample ⟨0x15, 0, 0⟩) ⟨0x15, 0, 0⟩ ∧
    (0xD : BitVec 32).toNat ∉ [0x0, 0x1, 0x2, 0x3, 0x4, 0x5, 0x6, 0x7, 0x8, 0x9, 0xA, 0xB, 0xC, 0xF, 0x14] ∧
    (0x15 : BitVec 32).toNat ∉ [0x0, 0x1, 0x2, 0x3, 0x4, 0x5, 0x6, 0x7, 0x8, 0x9, 0xA, 0xB, 0xC, 0xF, 0x14] := by
  decide

theorem witness_IllegalLevelFailsFirst :
    (Instr.sto 5 0).lvl < (Instr.sto 5 0).mnemonic.descriptor.min ∧
    (Instr.lod 5 3).mnemonic.descriptor.max < (Instr.lod 5 3).lvl := by decide

theorem witness_FailedStepChangesOnlyRunningAndLatch : (sample ⟨0x6, 0, 0⟩).fault = none ∧
    step (sample ⟨0x6, 0, 0⟩) = .next ((sample ⟨0x6, 0, 0⟩).failed .arithmeticError 0) ∧
    ((sample ⟨0x6, 0, 0⟩).failed .arithmeticError 0).fault = some ⟨.arithmeticError, 0⟩ :=
  ⟨by decide, next_of_answered (by decide), by decide⟩

theorem witness_StatusSaysHowTheStepEnded : Fetches (sample ⟨0x3, 5, 0⟩) ⟨0x3, 5, 0⟩ ∧
    decode ⟨0x3, 5, 0⟩ = .ok (.add 5 0) ∧
    step (sample ⟨0x3, 5, 0⟩) = .next (stepState (sample ⟨0x3, 5, 0⟩)) ∧ stepStatus (sample ⟨0x3, 5, 0⟩) = .ok ∧
    stepStatus (sample ⟨0x6, 0, 0⟩) = .fault ⟨.arithmeticError, 0⟩ ∧ stepStatus (sample ⟨0xF, 0, 0⟩) = .halted :=
  ⟨by decide, by decide, next_of_answered (by decide), by decide, by decide, by decide⟩

/-- A state that is not the reset state meets the invariant, and a step from it answers a next state. -/
theorem witness_StepKeepsTheInvariant : (sample ⟨0x2, 511, 1⟩).Inv ∧
    step (sample ⟨0x2, 511, 1⟩) = .next (stepState (sample ⟨0x2, 511, 1⟩)) :=
  ⟨⟨by decide, by decide, by decide, by decide, by decide, by decide, by decide⟩, next_of_answered (by decide)⟩

theorem witness_EveryCommandKeepsTheInvariant : (sample ⟨0x0, 0, 0⟩).Inv ∧
    (Command.reset Config.default).legal = true ∧ (Command.loadWord 511 3).legal = true :=
  ⟨⟨by decide, by decide, by decide, by decide, by decide, by decide, by decide⟩, by decide, by decide⟩

theorem witness_StepLeavesCodeAndConfiguration :
    step (sample ⟨0x2, 511, 1⟩) = .next (stepState (sample ⟨0x2, 511, 1⟩)) := next_of_answered (by decide)

theorem witness_StepNeverStartsAndRarelyTerminates :
    (stepState (sample ⟨0x0, 0, 0⟩)).running = true ∧
    step (batch (sample ⟨0xF, 3, 0⟩)) = .next (stepState (batch (sample ⟨0xF, 3, 0⟩))) ∧
    (stepState (batch (sample ⟨0xF, 3, 0⟩))).terminated = true :=
  ⟨by decide, next_of_answered (by decide), by decide⟩

theorem witness_HostOnlyStateNeverReachesAProgram :
    SameForPrograms (sample ⟨0x3, 5, 0⟩)
      { sample ⟨0x3, 5, 0⟩ with lastChanged := some 7, fault := some ⟨.rangeError, 3⟩, scratch := 8, freeIndex := 2 } ∧
    step (sample ⟨0x3, 5, 0⟩) = .next (stepState (sample ⟨0x3, 5, 0⟩)) :=
  ⟨by decide, next_of_answered (by decide)⟩

theorem witness_EachInstructionWritesOnlyItsOwnState :
    exec (.add 5 0) (sample ⟨0x3, 5, 0⟩) = .next (stepState (sample ⟨0x3, 5, 0⟩)) ∧
    (Instr.add 5 0).mnemonic ∉ [Mnemonic.sto, Mnemonic.rot] ∧
    exec (.sto 5 1) (sample ⟨0x2, 5, 1⟩) = .next (stepState (sample ⟨0x2, 5, 1⟩)) ∧
    (Instr.sto 5 1).mnemonic ∈ [Mnemonic.nop, .sto, .jump, .jmpz, .halt, .rot] :=
  ⟨next_of_answered (by decide), by decide, next_of_answered (by decide), by decide⟩

theorem witness_PcIncrementNeverWraps : (sample ⟨0x0, 0, 0⟩).Inv ∧ Fetches (sample ⟨0x0, 0, 0⟩) ⟨0x0, 0, 0⟩ :=
  ⟨⟨by decide, by decide, by decide, by decide, by decide, by decide, by decide⟩, by decide⟩

theorem witness_LatchedFailureNeverResumes :
    ((sample ⟨0x0, 0, 0⟩).failed .rangeError 3).fault = some ⟨.rangeError, 3⟩ ∧
    ((sample ⟨0x0, 0, 0⟩).failed .rangeError 3).running = false ∧
    (∀ c ∈ [Command.start, .step, .halt, .loadWord 5 3], c ≠ .clear ∧ ∀ cfg, c ≠ .reset cfg) := by
  refine ⟨by decide, by decide, ?_⟩
  intro c hc
  simp only [List.mem_cons, List.not_mem_nil, or_false] at hc
  rcases hc with rfl | rfl | rfl | rfl <;> exact ⟨by simp, by simp⟩

theorem witness_TerminatedMachineIsFrozen :
    (stepState (batch (sample ⟨0xF, 0, 0⟩))).terminated = true ∧ (∀ cfg, Command.clear ≠ .reset cfg) :=
  ⟨by decide, by simp⟩

theorem witness_StartRunsUnlessRefused : State.reset.terminated = false ∧ State.reset.fault = none ∧
    ((sample ⟨0x0, 0, 0⟩).failed .rangeError 3).fault ≠ none ∧
    (stepState (batch (sample ⟨0xF, 0, 0⟩))).terminated = true := by decide

theorem witness_ClearIsTheExplicitReset : (sample ⟨0x0, 0, 0⟩).terminated = false ∧
    (stepState (batch (sample ⟨0xF, 0, 0⟩))).terminated = true := by decide

theorem witness_HaltCommandByMode : (sample ⟨0x0, 0, 0⟩).terminated = false ∧
    (sample ⟨0x0, 0, 0⟩).config.haltMode = .interactive ∧ (batch (sample ⟨0x0, 0, 0⟩)).config.haltMode = .batch := by
  decide

theorem witness_ResetState : (stepState (batch (sample ⟨0xF, 0, 0⟩))).terminated = true ∧
    (perform (.reset Config.default) (stepState (batch (sample ⟨0xF, 0, 0⟩)))).terminated = false := by decide

theorem witness_LoaderPutsTheProgramInPlace_malformed : readArtifact (lines ["1 0 X", "-1"]) = none ∧
    readArtifact (lines ["F 0 0"]) = none := by decide

theorem witness_LoaderPutsTheProgramInPlace : State.reset.terminated = false ∧
    [(⟨0xF, 0, 0⟩ : Slot)].length ≤ State.reset.config.codeCapacity ∧
    (∀ d ∈ [((5, 1) : Word × Word), (511, 2)], InRange d.1) :=
  ⟨rfl, by simp [State.reset, State.construct, Config.default, Config.maxCodeCapacity], by
    simp only [List.mem_cons, List.not_mem_nil, or_false, forall_eq_or_imp, forall_eq]
    exact ⟨by decide, by decide⟩⟩

/-- Both sides of each bound of memory. -/
theorem witness_MemoryAccessPrimitives : ((0 : Int) ≤ 0 ∧ (511 : Int) < 512) ∧ ((-1 : Int) < 0 ∧ (512 : Int) ≤ 512) ∧
    memRead 511 (sample ⟨0x0, 0, 0⟩) = .ok 4 ∧ memRead 512 (sample ⟨0x0, 0, 0⟩) = .error ⟨.outOfRange, 512⟩ ∧
    memRead (-1) (sample ⟨0x0, 0, 0⟩) = .error ⟨.outOfRange, -1⟩ := by decide

theorem witness_CanonicalMemoriesThatReadAlikeAreEqual :
    (Memory.write [(3, 1)] 511 2).wf = true ∧ (Memory.write [(511, 2)] 3 1).wf = true ∧
    Memory.write [(3, 1)] 511 2 = Memory.write [(511, 2)] 3 1 ∧ Memory.write [(3, 1)] 3 0 = [] := by decide

/-- The operand forms of LOD, ADD, SUB, MUL, DIV at each level, at the bounds of memory. -/
theorem witness_operands : Operand (sample ⟨0x0, 0, 0⟩) 0 512 512 ∧ Operand (sample ⟨0x0, 0, 0⟩) 1 511 4 ∧
    Operand (sample ⟨0x0, 0, 0⟩) 1 0 0 ∧ Operand (sample ⟨0x0, 0, 0⟩) 2 0x22 4 := by
  refine ⟨?_, ?_, ?_, ?_⟩ <;> decide

/-- Both failing accesses, at the bounds of memory. -/
theorem witness_operand_failures : OperandFails (sample ⟨0x0, 0, 0⟩) 1 512 512 ∧
    OperandFails (sample ⟨0x0, 0, 0⟩) 2 (-1) (-1) ∧ OperandFails (sample ⟨0x0, 0, 0⟩) 2 0x30 600 := by
  refine ⟨?_, ?_, ?_⟩ <;> decide

theorem witness_NopOnlyAdvances : answered (exec (.nop 99 0) (sample ⟨0x0, 99, 0⟩)) =
      some { sample ⟨0x0, 99, 0⟩ with pc := 1 } ∧ (1 : Int) ≠ 0 ∧ (-1 : Int) ≠ 0 := by decide

theorem witness_LodLoadsItsOperand : Operand (sample ⟨0x1, 511, 1⟩) 1 511 4 ∧
    OperandFails (sample ⟨0x1, 512, 1⟩) 1 512 512 ∧ (2 : Int) < 3 := by decide

theorem witness_StoStoresTheAccumulator : StoreAddress (sample ⟨0x2, 511, 1⟩) 1 511 511 ∧ InRange 511 ∧
    StoreAddress (sample ⟨0x2, 0x22, 2⟩) 2 0x22 511 ∧ OperandFails (sample ⟨0x2, 512, 1⟩) 1 512 512 ∧
    OperandFails (sample ⟨0x2, 0x30, 2⟩) 2 0x30 600 ∧ ((0 : Int) < 1 ∧ (2 : Int) < 3) := by decide

theorem witness_AddWrapsTheSum : Operand (sample ⟨0x3, 0x20, 2⟩) 2 0x20 (-7) ∧
    OperandFails (sample ⟨0x3, 0x30, 2⟩) 2 0x30 600 ∧ (2 : Int) < 3 := by decide

theorem witness_SubWrapsTheDifference : Operand (sample ⟨0x4, 0x21, 1⟩) 1 0x21 (-7) ∧
    OperandFails (sample ⟨0x4, 512, 1⟩) 1 512 512 ∧ (-1 : Int) < 0 := by decide

theorem witness_MulWrapsTheProduct : Operand (sample ⟨0x5, 7, 0⟩) 0 7 7 ∧
    OperandFails (sample ⟨0x5, 512, 1⟩) 1 512 512 ∧ (2 : Int) < 3 := by decide

theorem witness_DivTruncatesTowardZero : Operand (sample ⟨0x6, 2, 0⟩) 0 2 2 ∧ (2 : Word) ≠ 0 ∧
    (-2147483648 : Word).toInt = -2147483648 ∧ (-1 : Word).toInt = -1 ∧ Operand (sample ⟨0x6, 0, 0⟩) 0 0 0 ∧
    Operand (sample ⟨0x6, 5, 1⟩) 1 5 0 ∧ OperandFails (sample ⟨0x6, 600, 1⟩) 1 600 600 ∧ (2 : Int) < 3 := by decide

theorem witness_AndIsLogical : (1 : Int) ≤ 1 ∧ Operand (sample ⟨0x7, 511, 1⟩) 1 511 4 ∧
    Operand (sample ⟨0x7, 0, 0⟩) 0 0 0 ∧ ¬ InRange 512 ∧ ((-1 : Int) < 0 ∧ (1 : Int) < 2) := by decide

theorem witness_NotIsLogical : (sample ⟨0x8, 0, 0⟩).acc ≠ 0 ∧ (machine ⟨0x8, 0, 0⟩ 0 []).acc = 0 ∧ (1 : Int) ≠ 0 := by
  decide

theorem witness_CmpzTestsTheCellForZero : InRange 511 ∧ InRange 0 ∧ ¬ InRange 512 ∧ ¬ InRange (-1) ∧
    (0 : Int) ≠ 1 ∧ (2 : Int) ≠ 1 := by decide

theorem witness_CmplTestsTheSignOfTheCell : InRange 0x21 ∧ ((sample ⟨0xA, 0x21, 1⟩).cell 0x21).msb = true ∧
    ((sample ⟨0xA, 511, 1⟩).cell 511).msb = false ∧ ¬ InRange 512 ∧ (0 : Int) ≠ 1 := by decide

theorem witness_JumpStoresAnyTarget : Operand (sample ⟨0xB, -1, 0⟩) 0 (-1) (-1) ∧
    Operand (sample ⟨0xB, 511, 1⟩) 1 511 4 ∧ ¬ InRange 512 ∧ (1 : Int) < 2 ∧
    (((sample ⟨0xB, 9, 0⟩).code.length : Int) ≤ (1 : Word).toInt ∧ (-1 : Word).toInt < 0) := by decide

theorem witness_JmpzJumpsWhenTheAccumulatorIsZero : Operand (sample ⟨0xC, 8, 0⟩) 0 8 8 ∧
    (sample ⟨0xC, 8, 0⟩).acc ≠ 0 ∧ (machine ⟨0xC, 8, 0⟩ 0 []).acc = 0 ∧ ¬ InRange 512 ∧ (1 : Int) < 2 := by decide

theorem witness_HaltHaltsAndKeepsPc : (sample ⟨0xF, 0, 0⟩).config.haltMode = .interactive ∧
    (batch (sample ⟨0xF, 0, 0⟩)).config.haltMode = .batch ∧ (1 : Int) ≠ 0 ∧
    Fetches (sample ⟨0xF, 123, 0⟩) ⟨0xF, 123, 0⟩ ∧ (sample ⟨0xF, 123, 0⟩).fault = none := by decide

/-- A left and a right rotation; the window may end at 511 (V106). -/
theorem witness_RotRotatesTheWindow :
    (ControlBlock (window 507 5 (-1)) 0x30 507 5 (-1) ∧ ValidWindow (0x30 : Word).toInt 507 5 ∧ 1 ≤ 5 ∧
      (window 507 5 (-1)).config.rotMode = .fixed) ∧
    (ControlBlock (window 0x40 5 7) 0x30 0x40 5 7 ∧ ValidWindow (0x30 : Word).toInt 0x40 5) ∧
    (ControlBlock (window 0x40 5 (-5)) 0x30 0x40 5 (-5) ∧ (-5 : Int).natAbs % 5 = 0) := by decide

theorem witness_RotOfNothingOnlyAdvances :
    (ControlBlock (window 0x40 5 0) 0x30 0x40 5 0 ∧ ValidWindow (0x30 : Word).toInt 0x40 5) ∧
    (ControlBlock (window 0x31 0 5) 0x30 0x31 0 5 ∧ ValidWindow (0x30 : Word).toInt 0x31 0) ∧
    (ControlBlock (window 512 0 5) 0x30 512 0 5 ∧ ValidWindow (0x30 : Word).toInt 512 0) := by decide

/-- The last window that may smear, and the first that fails (V107). -/
theorem witness_RotCompatSmearsTheWindow :
    (ControlBlock (compat (window 506 5 (-1))) 0x30 506 5 (-1) ∧ ValidWindow (0x30 : Word).toInt 506 5 ∧ 506 + 5 ≤ 511) ∧
    (ControlBlock (compat (window 507 5 (-1))) 0x30 507 5 (-1) ∧ ValidWindow (0x30 : Word).toInt 507 5 ∧ 511 < 507 + 5) ∧
    (compat (window 507 5 (-1))).config.rotMode = .compat := by decide

theorem witness_RotControlCellsMustLieInMemory : (-4 : Word).toInt < 0 ∧ 511 < (512 : Word).toInt ∧
    (511 : Word).toInt = 511 ∧ (510 : Word).toInt = 510 := by decide

/-- V109, V110, V108, V111, V112. -/
theorem witness_RotInvalidWindowFails : (ControlBlock (window (-1) 2 1) 0x30 (-1) 2 1 ∧ (-1 : Int) < 0) ∧
    ControlBlock (window 0x40 (-1) 1) 0x30 0x40 (-1) 1 ∧
    (ControlBlock (window 508 5 1) 0x30 508 5 1 ∧ (512 : Int) ≤ 508 + 5 - 1) ∧
    (ControlBlock (window 0x2E 3 1) 0x30 0x2E 3 1 ∧ (0x30 : Word).toInt ≤ 0x2E + 3 - 1) ∧
    (ControlBlock (window 0x32 2 1) 0x30 0x32 2 1 ∧ (0x32 : Int) ≤ (0x30 : Word).toInt + 2) := by decide

theorem witness_RotDecodesAndAllowsLevelZeroOnly : (1 : Int) ≠ 0 ∧ (-1 : Int) ≠ 0 := by decide

theorem witness_RotEqualsItsLoops :
    (ControlBlock (window 0x40 5 (-7)) 0x30 0x40 5 (-7) ∧ ValidWindow (0x30 : Word).toInt 0x40 5) ∧
    (ControlBlock (compat (window 506 5 (-1))) 0x30 506 5 (-1) ∧ ValidWindow (0x30 : Word).toInt 506 5 ∧ 506 + 5 ≤ 511) := by
  decide

theorem witness_DecodeInvertsEncode : decode ⟨0x14, 0x30, 7⟩ = .ok (.rot 0x30 7) ∧
    encode (.rot 0x30 7) = ⟨0x14, 0x30, 7⟩ := by decide

theorem witness_CodeLineRoundTrip : codeLine (encode (.div (-1) 2)) = "6 FFFFFFFF 2".toList ∧
    readCodeLine "6 FFFFFFFF 2".toList = some (encode (.div (-1) 2)) := by decide

theorem witness_HexNumeralsRoundTrip : (0x80000000 : Word) ≠ 0 ∧ hexU 0x80000000 = "80000000".toList ∧
    hexU 0 = "0".toList := by decide

theorem witness_BadLinesAreReportedAtTheirNumber : startsWithWhiteSpace " LOD 1".toList = true ∧
    upper (trim " Data ".toList) = dataMarker ∧ trim " Data ".toList ≠ dataMarker := by decide

theorem witness_FirstBlankLineAnswersForLaterLines : (∀ l ∈ lines ["LOD 1"], l ≠ []) ∧
    (∃ l ∈ lines ["", "HALT"], l ≠ []) ∧ (∀ l ∈ lines ["", ""], l = []) := by decide

theorem witness_MnemonicAndArityErrors : tokens " \t".toList = [] ∧
    (tokens "Lod 1".toList = lines ["Lod", "1"] ∧ (∀ m, mnemonicName m ≠ "Lod".toList) ∧
      mnemonicName .lod = upper "Lod".toList) ∧
    ((∀ m, mnemonicName m ≠ "LOAD".toList) ∧ (∀ m, mnemonicName m ≠ upper "LOAD".toList)) ∧
    (tokens "HALT 0".toList = lines ["HALT", "0"] ∧ mnemonicName .halt = "HALT".toList) ∧
    tokens "LOD".toList = lines ["LOD"] ∧ 1 < (lines ["1", "2"]).length := by
  refine ⟨by decide, ⟨by decide, ?_, by decide⟩, ⟨?_, ?_⟩, by decide, by decide, by decide⟩ <;>
    (intro m; cases m <;> decide)

theorem witness_SelectorAndEncoder : "1A".toList.head? ≠ some '[' ∧ hexNumeral "1A".toList = some 0x1A ∧
    hexNumeral "1G".toList = none ∧ hexNumeral "".toList = none ∧ "1A".toList.getLast? ≠ some ']' ∧
    Mnemonic.lod ∉ [Mnemonic.nop, .not, .halt] ∧ Mnemonic.lod ∉ [Mnemonic.sto, .cmpz, .cmpl] ∧
    Mnemonic.rot ∉ [Mnemonic.lod, .sto, .add, .sub, .mul, .div] := by decide

theorem witness_EncodedSlotsAreLegalButRotDirect : encodeLine "ROT [30]".toList = .ok ⟨0x14, 0x30, 1⟩ ∧
    encodeLine "STO [[10]]".toList = .ok ⟨0x2, 0x10, 2⟩ := by decide

theorem witness_DataLinesNeedTwoNumerals :
    (segments (lines ["HALT", "DATA", "10 5", "10"])).data[0]? = some "10 5".toList ∧
    tokens "10 5".toList = lines ["10", "5"] ∧ hexNumeral "10".toList = some 0x10 ∧ hexNumeral "5".toList = some 5 ∧
    (segments (lines ["HALT", "DATA", "10 5", "10"])).data[1]? = some "10".toList ∧
    (∀ a v x y, tokens "10".toList = [a, v] → hexNumeral a = some x → hexNumeral v ≠ some y) :=
  ⟨by decide, by decide, by decide, by decide, by decide, fun a v _ _ h => by
    have h2 : (tokens "10".toList).length = 2 := (congrArg List.length h).trans rfl
    exact absurd h2 (by decide)⟩

theorem witness_AssembledProgramsReadBack : (assemble (lines ["ADD 5", "DATA", "10 5", ""])).report = [] ∧
    (assemble (lines ["ADD 5", "DATA", "10 5", ""])).artifact = some (lines ["3 5 0", "-1", "10 5"]) := by decide

theorem witness_ArtifactOnlyWithoutErrors : (assemble (lines ["ADD"])).report ≠ [] ∧
    (assemble (lines ["ADD 5"])).report = [] := by decide

end Sys2Proof.Tests
end

section
/-! SUPPORT. The machine's invariant (R13 to R18): one rule per state operation and per host command that keeps it, the case
lemmas of `exec` and `step` at a given next state, and what each kind of completion writes (R11, R14, R17, R19). -/

namespace Sys2Proof.Machine

/-! ### The rotation leaves every other field alone -/

section
variable (c : RotControl) (s : State)

@[simp] theorem rotateWindow_acc : (rotateWindow c s).acc = s.acc := (rotateWindow_rest c s).1
@[simp] theorem rotateWindow_code : (rotateWindow c s).code = s.code := by
  obtain ⟨-, -, h, -⟩ := rotateWindow_rest c s; exact h
@[simp] theorem rotateWindow_running : (rotateWindow c s).running = s.running := by
  obtain ⟨-, -, -, h, -⟩ := rotateWindow_rest c s; exact h
@[simp] theorem rotateWindow_terminated : (rotateWindow c s).terminated = s.terminated := by
  obtain ⟨-, -, -, -, h, -⟩ := rotateWindow_rest c s; exact h
@[simp] theorem rotateWindow_fault : (rotateWindow c s).fault = s.fault := by
  obtain ⟨-, -, -, -, -, h, -⟩ := rotateWindow_rest c s; exact h
@[simp] theorem rotateWindow_config : (rotateWindow c s).config = s.config := by
  obtain ⟨-, -, -, -, -, -, h, -⟩ := rotateWindow_rest c s; exact h

end

/-! ### What a given next state of `exec` or `step` can be -/

/-- The inversion of `exec` at a given next state. -/
theorem exec_next {i : Instr} {s t : State} (h : exec i s = .next t) : (∃ f, t = raise f s) ∨ Completes i s t := by
  rcases exec_cases i s with ⟨f, hf⟩ | ⟨u, hu, hc⟩
  · exact .inl ⟨f, Host.Outcome.next.inj (h.symm.trans hf)⟩
  · cases Host.Outcome.next.inj (h.symm.trans hu)
    exact .inr hc

/-- The inversion of `step` at a given next state: a gated step, a failure from the untouched state, or the completion of
the instruction in the fetched slot. -/
theorem step_next {s t : State} (h : step s = .next t) :
    t = s ∨ (s.running = true ∧ ∃ f, t = raise f s) ∨
      ∃ slot i, Fetches s slot ∧ decode slot = .ok i ∧ Completes i s t := by
  rcases step_cases s with ⟨hg, -⟩ | ⟨hterm, hrun, ⟨f, hf⟩ | ⟨slot, i, u, hfetch, hdec, hu, -, hc⟩⟩
  · exact .inl (Host.Outcome.next.inj (h.symm.trans hg))
  · exact .inr (.inl ⟨hrun, f, Host.Outcome.next.inj (h.symm.trans hf)⟩)
  · cases Host.Outcome.next.inj (h.symm.trans hu)
    exact .inr (.inr ⟨slot, i, ⟨hterm, hrun, fetch_ok hfetch⟩, hdec, hc⟩)

/-- The state a step leaves, for a proof that has the step only through `stepState`. -/
theorem step_eq_stepState (s : State) : step s = .next (stepState s) := by
  rcases step_cases s with ⟨h, -⟩ | ⟨-, -, ⟨f, h⟩ | ⟨-, -, t, -, -, h, -, -⟩⟩ <;> rw [stepState_of_step h, h]

/-! ### The invariant, one rule per state operation -/

namespace State.Inv

variable {s : State}

theorem construct {c : Config} (hc : c.valid = true) : (State.construct c).Inv where
  mem_wf := rfl
  marker_lt := by simp [State.construct]
  running_unlatched := by simp [State.construct]
  running_not_terminated := by simp [State.construct]
  terminated_batch := by simp [State.construct]
  code_fits := by simp [State.construct]
  capacity_legal := of_decide_eq_true hc

theorem setAcc (h : s.Inv) (v : Word) : (s.setAcc v).Inv := { h with }

theorem setPc (h : s.Inv) (v : Word) : (s.setPc v).Inv := { h with }

theorem advance (h : s.Inv) : s.advance.Inv := { h with }

theorem freeScratch (h : s.Inv) : s.freeScratch.Inv := { h with }

theorem storeCell (h : s.Inv) {a : Nat} (ha : a < 512) (v : Word) : (s.storeCell a v).Inv :=
  { h with
    mem_wf := Memory.wf_write s.mem a v h.mem_wf ha
    marker_lt := by simpa using ha }

theorem rotateWindow (h : s.Inv) {c : RotControl} {v : Int} (hc : rotCheck v s = .ok c) :
    (rotateWindow c s).Inv := by
  obtain ⟨hwf, hmarker⟩ := rotateWindow_wf hc h.mem_wf
  refine ⟨hwf, hmarker h.marker_lt, ?_, ?_, ?_, ?_, ?_⟩
  · simpa using h.running_unlatched
  · simpa using h.running_not_terminated
  · simpa using h.terminated_batch
  · simpa using h.code_fits
  · simpa using h.capacity_legal

theorem raise (h : s.Inv) (f : FaultRecord) : (raise f s).Inv :=
  { h with
    running_unlatched := nofun
    running_not_terminated := nofun }

theorem haltStrategy (h : s.Inv) : (haltStrategy s).Inv where
  mem_wf := by simpa using h.mem_wf
  marker_lt := by simpa using h.marker_lt
  running_unlatched := by simp
  running_not_terminated := by simp
  terminated_batch := by
    rw [haltStrategy_terminated, haltStrategy_config, Bool.or_eq_true, decide_eq_true_eq]
    rintro (hbatch | hterm)
    · exact hbatch
    · exact h.terminated_batch hterm
  code_fits := by simpa using h.code_fits
  capacity_legal := by simpa using h.capacity_legal

theorem setCode (h : s.Inv) {code : List Slot} (hc : code.length ≤ s.config.codeCapacity) :
    ({ s with code := code } : State).Inv :=
  { h with code_fits := hc }

/-- Every way an instruction can complete is a composition of the operations above. -/
theorem completes {i : Instr} {t : State} (h : s.Inv) (hc : Completes i s t) : t.Inv := by
  cases hc with
  | accumulator v => exact (h.setAcc v).advance
  | store a ha => exact (h.storeCell ha s.acc).advance
  | only => exact h.advance
  | jump v => exact h.setPc v
  | halt => exact h.haltStrategy
  | rot a c _ hc => exact (h.rotateWindow hc).freeScratch.advance

theorem step {t : State} (h : s.Inv) (hs : step s = .next t) : t.Inv := by
  rcases step_next hs with rfl | ⟨-, f, rfl⟩ | ⟨_, _, -, -, hc⟩
  · exact h
  · exact h.raise f
  · exact h.completes hc

end State.Inv

/-- Settles O10: by the cases of a step, each a composition of operations that keep the invariant. -/
theorem stepKeepsTheInvariant : Obligations.StepKeepsTheInvariant := fun _ _ h hs => h.step hs

/-! ### The invariant, one rule per host command -/

namespace State.Inv

variable {s : State}

theorem clearCommand (h : s.Inv) : (clearCommand s).Inv := by
  unfold Machine.clearCommand
  split
  · exact h
  · exact { h with
      mem_wf := Memory.wf_cleared s.mem _ h.mem_wf
      marker_lt := nofun
      running_unlatched := nofun
      running_not_terminated := nofun }

theorem startCommand (h : s.Inv) : (startCommand s).Inv := by
  unfold Machine.startCommand
  split
  · next hstart =>
    obtain ⟨hterm, hfault⟩ := hstart
    exact { h with
      running_unlatched := fun _ => hfault
      running_not_terminated := fun _ => hterm }
  · exact h

theorem haltCommand (h : s.Inv) : (haltCommand s).Inv := by
  unfold Machine.haltCommand
  split
  · exact h
  · exact h.haltStrategy

theorem loadWord (h : s.Inv) (a : Int) (v : Word) : (loadWord a v s).state.Inv := by
  unfold Machine.loadWord
  split
  · exact h
  · split
    · next hw =>
      obtain ⟨h0, h1, rfl⟩ := memWrite_ok hw
      exact h.storeCell (by omega) v
    · exact h

theorem loadWords (h : s.Inv) (data : List (Word × Word)) : (loadWords data s).state.Inv := by
  induction data generalizing s with
  | nil => exact h
  | cons d rest ih =>
    obtain ⟨a, v⟩ := d
    have hw := h.loadWord a.toInt v
    unfold Machine.loadWords
    split
    · next hd => exact ih (by rwa [hd] at hw)
    · next hd => rwa [hd] at hw

theorem loadSlot (h : s.Inv) (i : Nat) (slot : Slot) : (loadSlot i slot s).state.Inv := by
  unfold Machine.loadSlot
  split
  · exact h
  · split
    · exact h.setCode (by simpa using h.code_fits)
    · split
      · next hi =>
        obtain ⟨hlen, hcap⟩ := hi
        exact h.setCode (by rw [List.length_append, List.length_singleton]; omega)
      · exact h

theorem loadImage (h : s.Inv) (image : Assembler.Image) : (loadImage image s).state.Inv := by
  unfold Machine.loadImage
  split
  · exact h
  · split
    · next hfits => exact (h.setCode hfits).loadWords image.data
    · exact h

theorem perform (h : s.Inv) {c : Command} (hc : c.legal = true) : (perform c s).Inv := by
  cases c with
  | reset c => exact construct hc
  | clear => exact h.clearCommand
  | start => exact h.startCommand
  | step => exact h.step (step_eq_stepState s)
  | halt => exact h.haltCommand
  | loadWord a v => exact h.loadWord a v
  | loadSlot i slot => exact h.loadSlot i slot
  | loadImage image => exact h.loadImage image
  | loadFile file =>
    rcases perform_loadFile file s with hf | ⟨image, hf⟩
    · rw [hf]; exact h
    · rw [hf]; exact h.loadImage image

end State.Inv

/-- Settles O11: by the cases of a command, each with its own rule. -/
theorem everyCommandKeepsTheInvariant : Obligations.EveryCommandKeepsTheInvariant := fun _ _ hc h => h.perform hc

/-- Settles O12: the default configuration is a legal one. -/
theorem resetMeetsTheInvariant : Obligations.ResetMeetsTheInvariant := State.Inv.construct (by decide)

/-! ### Host-only state -/

theorem fetch_congr {s s' : State} (hpc : s.pc = s'.pc) (hcode : s.code = s'.code) : fetch s = fetch s' := by
  simp only [fetch, hpc, hcode]

theorem SameForPrograms.raise {s s' : State} (h : SameForPrograms s s') (f : FaultRecord) :
    SameForPrograms (raise f s) (raise f s') := by
  obtain ⟨hacc, hpc, hmem, hcode, -, hterm, hconfig⟩ := h
  exact ⟨hacc, hpc, hmem, hcode, rfl, hterm, hconfig⟩

/-- Two machines a program cannot tell apart stay so when both perform the same instruction. -/
theorem SameForPrograms.exec {i : Instr} {s s' t t' : State} (h : SameForPrograms s s') (ht : exec i s = .next t)
    (ht' : exec i s' = .next t') : SameForPrograms t t' := by
  rcases exec_related i h with ⟨f, hf, hf'⟩ | ⟨u, u', hu, hu', hsame, -⟩
  · cases ht.symm.trans hf
    cases ht'.symm.trans hf'
    exact h.raise f
  · cases ht.symm.trans hu
    cases ht'.symm.trans hu'
    exact hsame

/-- Settles O15: agreeing machines pass or fail the gate together, fetch the same slot, and perform the same
instruction. -/
theorem hostOnlyStateNeverReachesAProgram : Obligations.HostOnlyStateNeverReachesAProgram := by
  intro s s' t t' h ht ht'
  have ⟨_, hpc, _, hcode, hrun, hterm, _⟩ := h
  by_cases hgate : s.terminated = true ∨ s.running = false
  · cases ht.symm.trans (step_of_gate hgate)
    cases ht'.symm.trans (step_of_gate (by rwa [← hterm, ← hrun]))
    exact h
  · have hterm0 : s.terminated = false := by simpa using fun h => hgate (.inl h)
    have hrun1 : s.running = true := by simpa using fun h => hgate (.inr h)
    cases hf : fetch s with
    | error f =>
      cases ht.symm.trans (step_of_no_fetch hterm0 hrun1 hf)
      cases ht'.symm.trans (step_of_no_fetch (hterm ▸ hterm0) (hrun ▸ hrun1) (fetch_congr hpc hcode ▸ hf))
      exact h.raise f
    | ok slot =>
      rw [step_of_fetch hterm0 hrun1 hf] at ht
      rw [step_of_fetch (hterm ▸ hterm0) (hrun ▸ hrun1) (fetch_congr hpc hcode ▸ hf)] at ht'
      cases hd : decode slot with
      | error e =>
        rw [hd] at ht ht'
        cases ht
        cases ht'
        exact h.raise _
      | ok i =>
        rw [hd] at ht ht'
        exact h.exec ht ht'

/-! ### Which instruction a slot holds -/

/-- The opcode table and the encoder's opcodes agree row by row. -/
theorem lookupOpcode_eq_some {op : BitVec 32} {m : Mnemonic} (h : lookupOpcode op = some m) : op = m.opcode := by
  have hrows : ∀ row ∈ opcodeTable, row.1 = row.2.opcode := by decide
  obtain ⟨row, hrow, rfl⟩ := Option.map_eq_some_iff.1 h
  have hop : row.1 = op := by simpa using List.find?_some hrow
  rw [← hop, hrows row (List.mem_of_find?_eq_some hrow)]

/-- The slot of a decoded instruction is the one it was decoded from. -/
theorem encode_of_decode {slot : Slot} {i : Instr} (h : decode slot = .ok i) : encode i = slot := by
  unfold decode at h
  split at h
  · next m hm =>
    cases h
    obtain ⟨op, arg, lvl⟩ := slot
    cases lookupOpcode_eq_some hm
    cases m <;> rfl
  · cases h

/-! ### What a completed instruction writes -/

section
variable {i : Instr} {s t : State}

theorem Completes.mem_eq (h : Completes i s t) (hi : i.mnemonic ∉ [.sto, .rot]) :
    t.mem = s.mem ∧ t.lastChanged = s.lastChanged := by
  cases h with
  | store a ha hsto => simp [hsto] at hi
  | rot a c hrot => subst hrot; simp [Instr.mnemonic] at hi
  | _ => simp

theorem Completes.acc_eq (h : Completes i s t) (hi : i.mnemonic ∈ [.nop, .sto, .jump, .jmpz, .halt, .rot]) :
    t.acc = s.acc := by
  cases h with
  | accumulator v hacc => rcases hacc with h | h | h | h | h | h | h | h | h <;> simp [h] at hi
  | _ => simp

theorem Completes.scratch_eq (h : Completes i s t) (hi : i.mnemonic ≠ .rot) :
    t.scratch = s.scratch ∧ t.freeIndex = s.freeIndex := by
  cases h with
  | rot a c hrot => subst hrot; exact absurd rfl hi
  | _ => simp

/-- Only a HALT at level 0 writes the terminated flag, and it sets the flag in batch mode only (R82, R122). -/
theorem Completes.terminated_cases (h : Completes i s t) :
    t.terminated = s.terminated ∨ (s.config.haltMode = .batch ∧ ∃ a, i = .halt a 0) := by
  cases h with
  | halt a hi =>
    by_cases hbatch : s.config.haltMode = .batch
    · exact .inr ⟨hbatch, a, hi⟩
    · exact .inl (by simp [hbatch])
  | _ => exact .inl (by simp)

theorem Completes.terminated_eq (h : Completes i s t) (hi : i.mnemonic ≠ .halt) : t.terminated = s.terminated := by
  rcases h.terminated_cases with heq | ⟨-, a, rfl⟩
  · exact heq
  · exact absurd rfl hi

theorem Completes.code_eq (h : Completes i s t) : t.code = s.code := by
  cases h <;> simp

theorem Completes.config_eq (h : Completes i s t) : t.config = s.config := by
  cases h <;> simp

end

/-- Settles O14: a gated step keeps both flags, a failure does not write `terminated`, and a completed instruction that
changes it is a HALT, whose slot the decoder has read. -/
theorem stepNeverStartsAndRarelyTerminates : Obligations.StepNeverStartsAndRarelyTerminates := by
  intro s t hstep
  rcases step_next hstep with rfl | ⟨hrun, f, rfl⟩ | ⟨slot, i, hfetch, hdec, hc⟩
  · exact ⟨id, .inl⟩
  · exact ⟨fun _ => hrun, .inl⟩
  · have ⟨_, hrun, _⟩ := hfetch
    refine ⟨fun _ => hrun, fun hterm => ?_⟩
    rcases hc.terminated_cases with heq | ⟨hbatch, a, rfl⟩
    · exact .inl (heq ▸ hterm)
    · cases encode_of_decode hdec
      exact .inr ⟨hbatch, a, hfetch⟩

/-- Settles O16: a failure writes none of these fields, and a completed instruction only those of its own kind. -/
theorem eachInstructionWritesOnlyItsOwnState : Obligations.EachInstructionWritesOnlyItsOwnState := by
  intro i s t hexec
  rcases exec_next hexec with ⟨f, rfl⟩ | hc
  · simp
  · exact ⟨hc.mem_eq, hc.acc_eq, hc.scratch_eq, hc.terminated_eq, hc.code_eq, hc.config_eq⟩

/-- Settles O17: the fetched position lies below the code store's capacity, so below the largest word. -/
theorem pcIncrementNeverWraps : Obligations.PcIncrementNeverWraps := by
  intro s slot h hfetch
  obtain ⟨-, -, hpc, hslot⟩ := hfetch
  obtain ⟨hlt, -⟩ := List.getElem?_eq_some_iff.1 hslot
  have hfits := h.code_fits
  have hlegal := h.capacity_legal
  exact Word.toInt_succ s.pc (by omega)

/-! ### The terminated machine -/

/-- Settles O19: every command but reset looks at the terminated flag, or at the gate, before anything else. -/
theorem terminatedMachineIsFrozen : Obligations.TerminatedMachineIsFrozen := by
  intro c s hterm hreset
  have hload (image) : perform (.loadImage image) s = s := by simp [perform, loadImage, hterm]
  cases c with
  | reset c => exact absurd rfl (hreset c)
  | clear => simp [perform, clearCommand, hterm]
  | start => simp [perform, startCommand, hterm]
  | step => exact stepState_of_step (step_of_gate (.inl hterm))
  | halt => simp [perform, haltCommand, hterm]
  | loadWord a v => simp [perform, loadWord, hterm]
  | loadSlot i slot => simp [perform, loadSlot, hterm]
  | loadImage image => exact hload image
  | loadFile file =>
    rcases perform_loadFile file s with hf | ⟨image, hf⟩
    · exact hf
    · exact hf.trans (hload image)

end Sys2Proof.Machine
end

section
/-! SUPPORT. Data memory and the code store (20_memory.md): no step writes the code store (R44), the access primitives at
and past their bounds (R32 to R34), and the canonical form of a memory as the list of the non-zero words it reads. -/

namespace Sys2Proof.Machine

/-- Settles O13: a gated step and a failure write neither field, and nor does any way an instruction can complete. -/
theorem stepLeavesCodeAndConfiguration : Obligations.StepLeavesCodeAndConfiguration := by
  intro s t hstep
  rcases step_next hstep with rfl | ⟨-, f, rfl⟩ | ⟨_, _, -, -, hc⟩
  · exact ⟨rfl, rfl⟩
  · exact ⟨raise_code f s, raise_config f s⟩
  · exact ⟨hc.code_eq, hc.config_eq⟩

/-- Settles O25: in bounds the write is `storeCell`, and a read after it is a read after a write of the memory list. -/
theorem memoryAccessPrimitives : Obligations.MemoryAccessPrimitives := by
  intro s a v
  constructor
  · intro h0 h1
    exact ⟨memRead_in ⟨h0, h1⟩, s.storeCell a.toNat v, memWrite_in ⟨h0, h1⟩, rfl,
      Memory.read_write_same s.mem a.toNat v, fun b hb => Memory.read_write_other s.mem a.toNat b v hb⟩
  · intro hout
    have hbounds : ¬ (0 ≤ a ∧ a < 512) := by omega
    exact ⟨memRead_out hbounds, memWrite_out hbounds⟩

/-! ### A canonical memory is determined by its reads -/

/-- With rising addresses no listed cell is hidden behind another of the same address. -/
theorem Memory.read_of_mem {m : Memory} (hp : m.Pairwise (fun c d => c.1 < d.1)) {c : Cell} (hc : c ∈ m) :
    m.read c.1 = c.2 := by
  induction m with
  | nil => cases hc
  | cons d rest ih =>
    obtain ⟨hd, hrest⟩ := List.pairwise_cons.1 hp
    rcases List.mem_cons.1 hc with rfl | hc
    · simp [Memory.read]
    · have hne : d.1 ≠ c.1 := (hd c hc).ne
      simpa [Memory.read, hne] using ih hrest hc

/-- The cells listed in a canonical memory are the addresses below 512 that read as a non-zero word, with that word. -/
theorem Memory.mem_iff_read {m : Memory} (hm : m.wf = true) (c : Cell) :
    c ∈ m ↔ c.1 < 512 ∧ m.read c.1 = c.2 ∧ c.2 ≠ 0 := by
  obtain ⟨hp, hcells⟩ := (Memory.wf_iff m).1 hm
  constructor
  · intro hc
    obtain ⟨hlt, hne⟩ := hcells c hc
    exact ⟨hlt, Memory.read_of_mem hp hc, hne⟩
  · rintro ⟨-, hread, hne⟩
    obtain ⟨d, hd, hdc⟩ : ∃ d ∈ m, d.1 = c.1 := by
      by_contra habsent
      push Not at habsent
      exact hne (hread.symm.trans (Memory.read_of_absent c.1 m habsent))
    have hword : d.2 = c.2 := by rw [← Memory.read_of_mem hp hd, hdc, hread]
    exact Prod.ext hdc hword ▸ hd

/-- Settles O26: the reads fix which cells are listed, and the rising order fixes the list. -/
theorem canonicalMemoriesThatReadAlikeAreEqual : Obligations.CanonicalMemoriesThatReadAlikeAreEqual := by
  intro m m' hm hm' hread
  obtain ⟨hp, -⟩ := (Memory.wf_iff m).1 hm
  obtain ⟨hp', -⟩ := (Memory.wf_iff m').1 hm'
  have hasymm : Std.Asymm (fun c d : Cell => c.1 < d.1) := ⟨fun _ _ => Nat.lt_asymm⟩
  refine hp.eq_of_mem_iff hp' fun c => ?_
  rw [Memory.mem_iff_read hm, Memory.mem_iff_read hm']
  exact and_congr_right fun hlt => by rw [hread c.1 hlt]

end Sys2Proof.Machine
end

section
/-! SUPPORT. Slots and their text (30_encoding.md): the opcode map read both ways (R50, R55, R56), the levels each opcode
allows (R57), and the numerals and code lines of slots (R51 to R53). -/

namespace Sys2Proof

/-! ### The decoder and the encoder -/

/-- The decoder's table finds every mnemonic at the encoder's opcode (R55). -/
@[simp] theorem lookupOpcode_opcode (m : Mnemonic) : lookupOpcode m.opcode = some m := by
  cases m <;> rfl

/-- An instruction is its mnemonic, argument and level, and nothing more. -/
@[simp] theorem Instr.instr_mnemonic (i : Instr) : i.mnemonic.instr i.arg i.lvl = i := by
  cases i <;> rfl

theorem decode_encode (i : Instr) : decode (encode i) = .ok i := by
  simp only [decode, encode, lookupOpcode_opcode, Instr.instr_mnemonic]

theorem decode_eq_error {slot : Slot} (h : lookupOpcode slot.op = none) :
    decode slot = .error (.unknownOpcode slot.op) := by
  simp only [decode, h]

/-- Settles O48: the table has one row per mnemonic, at the opcode the encoder writes, and neither side touches the
argument or the level. -/
theorem decodeInvertsEncode : Obligations.DecodeInvertsEncode :=
  ⟨decode_encode, fun _ _ h => Machine.encode_of_decode h⟩

/-- Settles O50: the first five slots are encodings of the instructions they decode to, and 0xD is in no row. -/
theorem knownSlotsDecode : Obligations.KnownSlotsDecode :=
  ⟨decode_encode (.lod 0x1A 2), decode_encode (.div 0x50 1), decode_encode (.cmpl 0x23 1), decode_encode (.jmpz 8 0),
    decode_encode (.rot 0x30 0), decode_eq_error (by decide)⟩

/-! ### The allowed levels -/

theorem Instr.wellFormed_iff (i : Instr) :
    i.wellFormed = true ↔ i.mnemonic.descriptor.min ≤ i.lvl ∧ i.lvl ≤ i.mnemonic.descriptor.max :=
  Machine.allowsLevel_iff i.mnemonic i.lvl

/-- Settles O5: the descriptors have five intervals between them; each opcode allows the levels of its own. -/
theorem allowedLevelsOfEachOpcode : Obligations.AllowedLevelsOfEachOpcode := by
  intro a l
  have only0 : 0 ≤ l ∧ l ≤ 0 ↔ l = 0 := by omega
  have only1 : 1 ≤ l ∧ l ≤ 1 ↔ l = 1 := by omega
  have upTo1 : 0 ≤ l ∧ l ≤ 1 ↔ l = 0 ∨ l = 1 := by omega
  have upTo2 : 0 ≤ l ∧ l ≤ 2 ↔ l = 0 ∨ l = 1 ∨ l = 2 := by omega
  have from1To2 : 1 ≤ l ∧ l ≤ 2 ↔ l = 1 ∨ l = 2 := by omega
  exact ⟨(Instr.nop a l).wellFormed_iff.trans only0, (Instr.not a l).wellFormed_iff.trans only0,
    (Instr.halt a l).wellFormed_iff.trans only0, (Instr.rot a l).wellFormed_iff.trans only0,
    (Instr.sto a l).wellFormed_iff.trans from1To2,
    (Instr.cmpz a l).wellFormed_iff.trans only1, (Instr.cmpl a l).wellFormed_iff.trans only1,
    (Instr.and a l).wellFormed_iff.trans upTo1, (Instr.jump a l).wellFormed_iff.trans upTo1,
    (Instr.jmpz a l).wellFormed_iff.trans upTo1,
    (Instr.lod a l).wellFormed_iff.trans upTo2, (Instr.add a l).wellFormed_iff.trans upTo2,
    (Instr.sub a l).wellFormed_iff.trans upTo2, (Instr.mul a l).wellFormed_iff.trans upTo2,
    (Instr.div a l).wellFormed_iff.trans upTo2⟩

end Sys2Proof

namespace Sys2Proof.Assembler

/-! ### The text of a slot -/

/-- Settles O49: the reader undoes a code line field by field, no field of an opcode begins with the sentinel's minus
sign, and the slot read back from an instruction's line is the one `encode` made. -/
theorem codeLineRoundTrip : Obligations.CodeLineRoundTrip :=
  ⟨fun slot => ⟨readCodeLine_codeLine slot, codeLine_ne_sentinel slot⟩,
    fun i => ⟨encode i, readCodeLine_codeLine (encode i), decode_encode i⟩⟩

/-- Only the numeral of 0 begins with the digit 0 (R7, R52). -/
theorem hexU_head?_ne_zero {n : Nat} (hn : n ≠ 0) : (hexU n).head? ≠ some '0' := by
  obtain ⟨d, more, hd, hd0, hdigits⟩ := hexU_head n
  rw [hdigits, List.head?_cons, ne_eq, Option.some_inj]
  exact hexDigit_not_zero d hd (hd0 hn)

/-- Every character of an emitted numeral is an upper-case hexadecimal digit (R52). -/
theorem hexU_upper {n : Nat} {c : Char} (hc : c ∈ hexU n) : ('0' ≤ c ∧ c ≤ '9') ∨ ('A' ≤ c ∧ c ≤ 'F') := by
  obtain ⟨d, hd, rfl⟩ := mem_hexU hc
  exact hexDigit_upper d hd

/-- Settles O51: the value, the leading digit, the digits' case and the length of `hexU`, at the number of a word. -/
theorem hexNumeralsRoundTrip : Obligations.HexNumeralsRoundTrip := by
  intro w
  refine ⟨hexNumeral_hexU w, fun hw => hexU_head?_ne_zero ?_, fun c hc => hexU_upper hc, length_hexU_word w⟩
  exact fun h => hw (BitVec.eq_of_toNat_eq h)

end Sys2Proof.Assembler
end

section
/-! SUPPORT. Dispatch and the host's side of a step (40_dispatch_and_indirection.md): the stages of a step (R70 to R77),
the status of a performed instruction (R83), what a failing step leaves (R81), and the running flag under `start`, `halt`
and the loader's writes (R71, R82, R84, R233). -/

namespace Sys2Proof.Machine

/-! ### The common shape of every instruction -/

/-- Every instruction is validated and resolved as its own mnemonic, argument and level before its semantics run (R70). -/
theorem exec_eq_withOperand (i : Instr) (s : State) :
    ∃ semantics, exec i s = withOperand i.mnemonic i.arg i.lvl s semantics := by
  cases i <;> exact ⟨_, by unfold exec; rfl⟩

/-- Settles O6: level validation is the first stage of the shape all instructions share. -/
theorem illegalLevelFailsFirst : Obligations.IllegalLevelFailsFirst := by
  intro i s hlvl
  obtain ⟨semantics, hexec⟩ := exec_eq_withOperand i s
  rw [hexec]
  exact withOperand_outside hlvl

theorem exec_halt (a : Word) (s : State) : exec (.halt a 0) s = .next (haltStrategy s) := by
  unfold exec execHalt
  exact withOperand_completes rfl (resolve_base rfl) rfl

/-! ### The stages of a step -/

theorem step_of_decode {s : State} {slot : Slot} {i : Instr} (hfetch : Fetches s slot) (hdec : decode slot = .ok i) :
    step s = exec i s := by
  obtain ⟨hterm, hrun, hpc, hslot⟩ := hfetch
  rw [step_of_fetch hterm hrun (fetch_in hpc hslot), hdec]

/-- Settles O1: past the gate, the fetch and the lookup, a step is `exec`. -/
theorem stepRunsTheDecodedInstruction : Obligations.StepRunsTheDecodedInstruction := fun _ _ _ => step_of_decode

/-- Settles O3: by the two sides of the fetch's bounds. -/
theorem fetchReadsTheSlotAtPc : Obligations.FetchReadsTheSlotAtPc := by
  intro s
  exact ⟨fun _ hpc hslot => fetch_in hpc hslot, fun hterm hrun hout => step_of_no_fetch hterm hrun (fetch_out hout)⟩

/-- Settles O7: the answer is the state `stepState` names. -/
theorem everyStepAnswersANextState : Obligations.EveryStepAnswersANextState := fun s =>
  ⟨stepState s, step_eq_stepState s⟩

/-! ### The status of a step -/

section
variable {s t : State} {f : FaultRecord}

theorem stepStatus_of_terminated (hterm : s.terminated = true) : stepStatus s = .terminated := by
  simp [stepStatus, hterm]

theorem stepStatus_of_not_running (hterm : s.terminated = false) (hrun : s.running = false) :
    stepStatus s = .notRunning := by
  simp [stepStatus, hterm, hrun]

theorem stepStatus_of_latched (hterm : s.terminated = false) (hrun : s.running = true)
    (hstep : step s.unlatched = .next t) (hfault : t.fault = some f) : stepStatus s = .fault f := by
  simp [stepStatus, hterm, hrun, stepState_of_step hstep, hfault]

theorem stepStatus_of_unlatched (hterm : s.terminated = false) (hrun : s.running = true)
    (hstep : step s.unlatched = .next t) (hfault : t.fault = none) :
    stepStatus s = if t.running then .ok else .halted := by
  simp [stepStatus, hterm, hrun, stepState_of_step hstep, hfault]

end

/-- Settles O8: of all a step can do, only the entry into a failure fills an empty latch. -/
theorem failedStepChangesOnlyRunningAndLatch : Obligations.FailedStepChangesOnlyRunningAndLatch := by
  intro s t f hempty hstep hfull
  rcases step_cases s with ⟨hgate, -⟩ | ⟨hterm, hrun, ⟨g, hraise⟩ | ⟨_, _, u, -, -, hu, -, hc⟩⟩
  · cases hstep.symm.trans hgate
    simp [hempty] at hfull
  · cases hstep.symm.trans hraise
    obtain rfl : g = f := by simpa using hfull
    rw [← State.unlatched_eq hempty] at hraise
    exact ⟨raise_eq_failed g s, hrun, hterm, stepStatus_of_latched hterm hrun hraise (raise_fault g _)⟩
  · cases hstep.symm.trans hu
    simp [hc.fault_eq, hempty] at hfull

/-- Only a HALT at level 0 writes the two flags of the run. -/
theorem Completes.flags_cases {i : Instr} {s t : State} (h : Completes i s t) :
    (t.running = s.running ∧ t.terminated = s.terminated) ∨ ∃ a, i = .halt a 0 := by
  cases h with
  | halt a hi => exact .inr ⟨a, hi⟩
  | _ => exact .inl (by simp)

/-- A performed instruction fails, halts the machine, or leaves it running; the status tells which (R83). The step and its
status are taken from two states that differ in the latch, which no instruction reads. -/
theorem step_status_cases {s : State} {slot : Slot} {i : Instr} (hfetch : Fetches s slot) (hdec : decode slot = .ok i) :
    (∃ f, step s = .next (raise f s) ∧ stepStatus s = .fault f ∧ ¬ ∃ a, i = .halt a 0) ∨
    (step s = .next (haltStrategy s) ∧ stepStatus s = .halted ∧ ∃ a, i = .halt a 0) ∨
    (∃ t, step s = .next t ∧ stepStatus s = .ok ∧ (¬ ∃ a, i = .halt a 0) ∧
      t.running = true ∧ t.fault = s.fault ∧ t.terminated = false) := by
  have ⟨hterm, hrun, _⟩ := hfetch
  have hunlatched : step s.unlatched = exec i s.unlatched := step_of_decode hfetch hdec
  rw [step_of_decode hfetch hdec]
  by_cases hhalt : ∃ a, i = .halt a 0
  · obtain ⟨a, rfl⟩ := hhalt
    rw [exec_halt] at hunlatched
    refine .inr (.inl ⟨exec_halt a s, ?_, a, rfl⟩)
    simpa using stepStatus_of_unlatched hterm hrun hunlatched (by simp)
  · rcases exec_related i (sameForPrograms_unlatched s) with ⟨f, hf, hf'⟩ | ⟨t, t', ht, ht', hsame, hfault, hfault'⟩
    · exact .inl ⟨f, hf, stepStatus_of_latched hterm hrun (hunlatched.trans hf') (raise_fault f _), hhalt⟩
    · have hc : Completes i s.unlatched t' := by
        rcases exec_next ht' with ⟨f, rfl⟩ | hc
        · simp at hfault'
        · exact hc
      obtain ⟨-, -, -, -, hrunning, hterminated, -⟩ := hsame
      obtain ⟨hrunning', hterminated'⟩ := hc.flags_cases.resolve_right hhalt
      have hrun' : t'.running = true := hrunning'.trans hrun
      have hstatus := stepStatus_of_unlatched hterm hrun (hunlatched.trans ht') hfault'
      rw [hrun'] at hstatus
      exact .inr (.inr ⟨t, ht, hstatus, hhalt, hrunning.trans hrun', hfault,
        hterminated.trans (hterminated'.trans hterm)⟩)

/-- Settles O9: the status and the next state of each of the three ways an instruction can end. -/
theorem statusSaysHowTheStepEnded : Obligations.StatusSaysHowTheStepEnded := by
  intro s t slot i hfetch hdec hstep
  rcases step_status_cases hfetch hdec with ⟨f, hf, hstatus, hhalt⟩ | ⟨-, hstatus, hhalt⟩ |
    ⟨u, hu, hstatus, hhalt, hended⟩
  · cases hstep.symm.trans hf
    simpa [hstatus, hhalt] using raise_eq_failed f s
  · simpa [hstatus] using hhalt
  · cases hstep.symm.trans hu
    simpa [hstatus, hhalt] using hended

/-! ### What a loader write leaves alone -/

/-- `t` differs from `s` at most in what the loader writes: memory, the marker and the code store (R233). -/
def State.LoadedTo (s t : State) : Prop :=
  t = { s with mem := t.mem, lastChanged := t.lastChanged, code := t.code }

namespace State.LoadedTo

variable {s t u : State}

theorem refl (s : State) : s.LoadedTo s := rfl

theorem trans (hst : s.LoadedTo t) (htu : t.LoadedTo u) : s.LoadedTo u := by
  unfold State.LoadedTo at *
  rw [htu, hst]

theorem running_eq (h : s.LoadedTo t) : t.running = s.running := by rw [h]

theorem setCode (s : State) (code : List Slot) : s.LoadedTo { s with code := code } := rfl

theorem loadWord (s : State) (a : Int) (v : Word) : s.LoadedTo (loadWord a v s).state := by
  unfold Machine.loadWord
  split
  · exact refl s
  · split
    · next hw =>
      obtain ⟨-, -, rfl⟩ := memWrite_ok hw
      rfl
    · exact refl s

theorem loadWords (s : State) (data : List (Word × Word)) : s.LoadedTo (loadWords data s).state := by
  induction data generalizing s with
  | nil => exact refl s
  | cons d rest ih =>
    obtain ⟨a, v⟩ := d
    have hw := loadWord s a.toInt v
    unfold Machine.loadWords
    split
    · next hd => exact trans (by rwa [hd] at hw) (ih _)
    · next hd => rwa [hd] at hw

theorem loadSlot (s : State) (i : Nat) (slot : Slot) : s.LoadedTo (loadSlot i slot s).state := by
  unfold Machine.loadSlot
  split
  · exact refl s
  · split
    · exact setCode s _
    · split
      · exact setCode s _
      · exact refl s

theorem loadImage (s : State) (image : Assembler.Image) : s.LoadedTo (loadImage image s).state := by
  unfold Machine.loadImage
  split
  · exact refl s
  · split
    · exact (setCode s image.code).trans (loadWords _ image.data)
    · exact refl s

theorem loadFile (s : State) (file : List Assembler.Line) : s.LoadedTo (loadFile file s).state := by
  cases hread : Assembler.readArtifact file with
  | none => rw [loadFile_of_none hread]; exact refl s
  | some image => rw [loadFile_of_image hread]; exact loadImage s image

end State.LoadedTo

/-! ### The running flag under the host's commands -/

section
variable {s : State}

theorem haltCommand_running (hrun : s.running = false) : (haltCommand s).running = false := by
  unfold haltCommand
  split
  · exact hrun
  · exact haltStrategy_running s

theorem clearCommand_running (hrun : s.running = false) : (clearCommand s).running = false := by
  unfold clearCommand
  split
  · exact hrun
  · rfl

theorem perform_not_running {c : Command} (hrun : s.running = false) (hc : c ≠ .start) :
    (perform c s).running = false := by
  cases c with
  | reset c => rfl
  | clear => exact clearCommand_running hrun
  | start => exact absurd rfl hc
  | step => exact (congrArg State.running (stepState_of_step (step_of_gate (.inr hrun)))).trans hrun
  | halt => exact haltCommand_running hrun
  | loadWord a v => exact (State.LoadedTo.loadWord s a v).running_eq.trans hrun
  | loadSlot i slot => exact (State.LoadedTo.loadSlot s i slot).running_eq.trans hrun
  | loadImage image => exact (State.LoadedTo.loadImage s image).running_eq.trans hrun
  | loadFile file => exact (State.LoadedTo.loadFile s file).running_eq.trans hrun

end

/-- Settles O2: by the gate, and by the cases of a command. -/
theorem gatedStepChangesNothing : Obligations.GatedStepChangesNothing := by
  intro s
  exact ⟨fun hterm => ⟨step_of_gate (.inl hterm), stepStatus_of_terminated hterm⟩,
    fun hterm hrun => ⟨step_of_gate (.inr hrun), stepStatus_of_not_running hterm hrun⟩,
    fun hrun _ => perform_not_running hrun⟩

/-! ### `start()` and `halt()` -/

section
variable {s : State}

theorem startCommand_allowed (hterm : s.terminated = false) (hempty : s.fault = none) :
    startCommand s = { s with running := true } :=
  if_pos ⟨hterm, hempty⟩

theorem startCommand_refused (h : s.terminated = true ∨ s.fault ≠ none) : startCommand s = s := by
  refine if_neg fun ⟨hterm, hempty⟩ => ?_
  rcases h with h | h
  · simp [hterm] at h
  · exact h hempty

theorem haltCommand_interactive (hterm : s.terminated = false) (hmode : s.config.haltMode = .interactive) :
    haltCommand s = { s with running := false } := by
  simp [haltCommand, haltStrategy, hterm, hmode]

theorem haltCommand_batch (hterm : s.terminated = false) (hmode : s.config.haltMode = .batch) :
    haltCommand s = { s with running := false, terminated := true } := by
  simp [haltCommand, haltStrategy, hterm, hmode]

theorem haltCommand_idempotent (hterm : s.terminated = false) : haltCommand (haltCommand s) = haltCommand s := by
  cases hmode : s.config.haltMode with
  | interactive =>
    rw [haltCommand_interactive hterm hmode]
    exact haltCommand_interactive hterm hmode
  | batch =>
    rw [haltCommand_batch hterm hmode]
    exact terminatedMachineIsFrozen .halt _ rfl nofun

end

/-- Settles O20: by the two sides of the command's test. -/
theorem startRunsUnlessRefused : Obligations.StartRunsUnlessRefused := fun _ =>
  ⟨startCommand_allowed, startCommand_refused⟩

/-- Settles O22: an interactive halt repeats itself, and a batch halt leaves a machine that is frozen. -/
theorem haltCommandByMode : Obligations.HaltCommandByMode := fun _ hterm =>
  ⟨haltCommand_interactive hterm, haltCommand_batch hterm, haltCommand_idempotent hterm⟩

end Sys2Proof.Machine
end

section
/-! SUPPORT. NOP, LOD and STO (41_nop_load_store.md): the opcode and code line of an instruction (R51 to R55), what an
instruction does with a value operand or with one that cannot be read (R75, R78), and the address STO stores to (R92). -/

namespace Sys2Proof.Machine

/-! ### The slot of an instruction -/

/-- An instruction is encoded as its mnemonic's opcode, in the opcode's own hexadecimal text (R51 to R53, R55). -/
theorem encodedAs_of_opcode {op : BitVec 32} {opText : List Char} (i : Instr) (hop : i.mnemonic.opcode = op)
    (htext : Assembler.hexU op.toNat = opText) : EncodedAs op opText i.arg i.lvl i := by
  subst hop htext
  refine ⟨decode_encode i, fun d hd => ?_⟩
  have hlevel : Assembler.levelField i.lvl = [d] := by
    rcases hd with ⟨hl, rfl⟩ | ⟨hl, rfl⟩ | ⟨hl, rfl⟩ <;> rw [hl] <;> decide
  simp [Assembler.codeLine, hlevel]

/-! ### An instruction at a resolved or an unresolved operand -/

section
variable {m : Mnemonic} {arg v : Word} {lvl a : Int} {s t : State}

/-- An instruction with base level 0 runs its semantics on the value operand. -/
theorem withOperand_of_operand {semantics : Word → Except FaultRecord State} (hbase : m.descriptor.base = 0)
    (hmax : lvl ≤ m.descriptor.max) (h : Operand s lvl arg v) (hs : semantics v = .ok t) :
    withOperand m arg lvl s semantics = .next t :=
  withOperand_completes ((allowsLevel_iff m lvl).2 ⟨hbase.trans_le h.level.1, hmax⟩) (resolve_of_operand hbase h) hs

/-- An instruction with base level 0 fails at the first address of its operand that is out of range. -/
theorem exec_of_operandFails {i : Instr} (hbase : i.mnemonic.descriptor.base = 0)
    (hmax : i.lvl ≤ i.mnemonic.descriptor.max) (h : OperandFails s i.lvl i.arg a) :
    exec i s = .next (s.failed .outOfRange a) := by
  obtain ⟨semantics, hexec⟩ := exec_eq_withOperand i s
  have hmin : i.mnemonic.descriptor.min ≤ i.lvl := hbase.trans_le (zero_le_one.trans h.level.1)
  rw [hexec]
  exact withOperand_unresolved ((allowsLevel_iff _ _).2 ⟨hmin, hmax⟩) (resolve_of_operandFails hbase h)

end

/-! ### NOP and LOD -/

theorem exec_nop (arg : Word) (s : State) : exec (.nop arg 0) s = .next s.advance := by
  unfold exec execNop
  exact withOperand_completes rfl (resolve_base rfl) rfl

theorem exec_lod {arg v : Word} {lvl : Int} {s : State} (h : Operand s lvl arg v) :
    exec (.lod arg lvl) s = .next (s.setAcc v).advance := by
  unfold exec execLod
  exact withOperand_of_operand rfl h.level.2 h rfl

/-- Settles O27: level 0 is the base level, so no cell is read, and every other level is outside NOP's interval. -/
theorem nopOnlyAdvances : Obligations.NopOnlyAdvances := by
  intro s arg lvl
  refine ⟨encodedAs_of_opcode (.nop arg lvl) rfl (by decide), ?_, fun hlvl => ?_⟩
  · rintro rfl
    exact exec_nop arg s
  · exact illegalLevelFailsFirst (.nop arg lvl) s (lt_or_gt_of_ne hlvl)

/-- Settles O28: by the outcome of resolving the operand, at a level inside LOD's interval. -/
theorem lodLoadsItsOperand : Obligations.LodLoadsItsOperand := fun s arg lvl =>
  ⟨encodedAs_of_opcode (.lod arg lvl) rfl (by decide), fun _ h => exec_lod h,
    illegalLevelFailsFirst (.lod arg lvl) s, fun _ h => exec_of_operandFails (i := .lod arg lvl) rfl h.level.2 h⟩

/-! ### STO -/

section
variable {arg v : Word} {lvl a : Int} {s : State}

/-- STO resolves one level less than the value operands do: its terminal operand is the address itself (R76, R92). -/
theorem StoreAddress.resolve_sto (h : StoreAddress s lvl arg v) : resolve .sto arg lvl s = .ok v := by
  rcases h with ⟨rfl, rfl⟩ | ⟨rfl, harg, rfl⟩
  · exact resolve_base rfl
  · exact resolve_one rfl harg

theorem StoreAddress.allowsLevel_sto (h : StoreAddress s lvl arg v) : Mnemonic.sto.allowsLevel lvl = true := by
  rcases h with ⟨rfl, -⟩ | ⟨rfl, -⟩ <;> decide

/-- The first address out of range is the pointer STO dereferences, or the address it stores to. -/
theorem OperandFails.store_cases (h : OperandFails s lvl arg a) :
    (lvl = 2 ∧ ¬ InRange arg ∧ a = arg.toInt) ∨ ∃ v, StoreAddress s lvl arg v ∧ ¬ InRange v ∧ a = v.toInt := by
  rcases h with ⟨hl | hl, hout, ha⟩ | ⟨hl, harg, hout, ha⟩
  · exact .inr ⟨arg, .inl ⟨hl, rfl⟩, hout, ha⟩
  · exact .inl ⟨hl, hout, ha⟩
  · exact .inr ⟨s.cell arg, .inr ⟨hl, harg, rfl⟩, hout, ha⟩

theorem exec_sto (h : StoreAddress s lvl arg v) (hv : InRange v) :
    exec (.sto arg lvl) s = .next (s.storeCell v.toInt.toNat s.acc).advance := by
  unfold exec execSto
  exact withOperand_completes h.allowsLevel_sto h.resolve_sto (by rw [memWrite_in hv])

theorem exec_sto_outOfRange (h : StoreAddress s lvl arg v) (hv : ¬ InRange v) :
    exec (.sto arg lvl) s = .next (s.failed .outOfRange v.toInt) := by
  unfold exec execSto
  exact withOperand_fails h.allowsLevel_sto h.resolve_sto (by rw [memWrite_out hv])

theorem exec_sto_pointer_outOfRange (harg : ¬ InRange arg) :
    exec (.sto arg 2) s = .next (s.failed .outOfRange arg.toInt) := by
  unfold exec execSto
  exact withOperand_unresolved rfl (resolve_first_fails (by decide) harg)

end

/-- Settles O29: in range, the store is a write of the memory list; out of range, the pointer or the store itself fails. -/
theorem stoStoresTheAccumulator : Obligations.StoStoresTheAccumulator := by
  intro s arg lvl
  refine ⟨encodedAs_of_opcode (.sto arg lvl) rfl (by decide), fun v h hv => ?_,
    illegalLevelFailsFirst (.sto arg lvl) s, fun a h => ?_⟩
  · exact ⟨_, exec_sto h hv, rfl, Memory.read_write_same s.mem _ s.acc,
      fun b hb => Memory.read_write_other s.mem _ b s.acc hb⟩
  · rcases h.store_cases with ⟨rfl, harg, rfl⟩ | ⟨v, hstore, hv, rfl⟩
    · exact exec_sto_pointer_outOfRange harg
    · exact exec_sto_outOfRange hstore hv

end Sys2Proof.Machine
end

section
/-! SUPPORT. ADD, SUB, MUL and DIV (42_arithmetic.md): the failures every instruction with a value operand can end in, the
word each leaves in `acc` (R100 to R103), and DIV by zero. -/

namespace Sys2Proof.Machine

/-! ### What the four have in common -/

/-- The common failures of an instruction whose levels are 0 to 2: another level, or an address out of range. -/
theorem commonFailures {i : Instr} (hmin : i.mnemonic.descriptor.min = 0) (hmax : i.mnemonic.descriptor.max = 2)
    (s : State) :
    ((i.lvl < 0 ∨ 2 < i.lvl) → exec i s = .next (s.failed .invalidIndirection i.lvl)) ∧
      ∀ a, OperandFails s i.lvl i.arg a → exec i s = .next (s.failed .outOfRange a) := by
  refine ⟨fun hlvl => illegalLevelFailsFirst i s ?_, fun a h => exec_of_operandFails hmin ?_ h⟩
  · rwa [hmin, hmax]
  · exact h.level.2.trans_eq hmax.symm

section
variable {arg v : Word} {lvl : Int} {s : State}

theorem exec_add (h : Operand s lvl arg v) : exec (.add arg lvl) s = .next (s.setAcc (s.acc + v)).advance := by
  unfold exec execAdd
  exact withOperand_of_operand rfl h.level.2 h (by rw [arithmetic_add])

theorem exec_sub (h : Operand s lvl arg v) : exec (.sub arg lvl) s = .next (s.setAcc (s.acc - v)).advance := by
  unfold exec execSub
  exact withOperand_of_operand rfl h.level.2 h (by rw [arithmetic_sub])

theorem exec_mul (h : Operand s lvl arg v) : exec (.mul arg lvl) s = .next (s.setAcc (s.acc * v)).advance := by
  unfold exec execMul
  exact withOperand_of_operand rfl h.level.2 h (by rw [arithmetic_mul])

theorem exec_div (h : Operand s lvl arg v) (hv : v ≠ 0) :
    exec (.div arg lvl) s = .next (s.setAcc (s.acc.sdiv v)).advance := by
  unfold exec execDiv
  exact withOperand_of_operand rfl h.level.2 h (by rw [if_neg hv, arithmetic_div])

/-- The divisor tested is the terminal operand, after all dereferences (R103). -/
theorem exec_div_zero (h : Operand s lvl arg 0) :
    exec (.div arg lvl) s = .next (s.failed .arithmeticError 0) := by
  unfold exec execDiv
  exact withOperand_fails ((allowsLevel_iff .div lvl).2 h.level) (resolve_of_operand rfl h) (if_pos rfl)

end

/-! ### ADD, SUB, MUL -/

/-- Settles O30: the policy's wrapped sum is the sum of words. -/
theorem addWrapsTheSum : Obligations.AddWrapsTheSum := fun s arg lvl =>
  ⟨encodedAs_of_opcode (.add arg lvl) rfl (by decide), fun _ h => exec_add h,
    commonFailures (i := .add arg lvl) rfl rfl s⟩

/-- Settles O31: the policy's wrapped difference is the difference of words. -/
theorem subWrapsTheDifference : Obligations.SubWrapsTheDifference := fun s arg lvl =>
  ⟨encodedAs_of_opcode (.sub arg lvl) rfl (by decide), fun _ h => exec_sub h,
    commonFailures (i := .sub arg lvl) rfl rfl s⟩

/-- Settles O32: the policy's wrapped product is the product of words. -/
theorem mulWrapsTheProduct : Obligations.MulWrapsTheProduct := fun s arg lvl =>
  ⟨encodedAs_of_opcode (.mul arg lvl) rfl (by decide), fun _ h => exec_mul h,
    commonFailures (i := .mul arg lvl) rfl rfl s⟩

/-! ### DIV -/

/-- The two words of the one overflowing quotient, by their values. -/
theorem toInt_eq_min_iff (a : Word) : a.toInt = -2147483648 ↔ a = BitVec.intMin Config.wordBits :=
  BitVec.toInt_inj (y := BitVec.intMin Config.wordBits)

theorem toInt_eq_neg_one_iff (a : Word) : a.toInt = -1 ↔ a = -1#Config.wordBits :=
  BitVec.toInt_inj (y := -1#Config.wordBits)

/-- Every other quotient is in range, so narrowing it changes nothing. -/
theorem toInt_sdiv_of_not_overflow {a b : Word} (h : ¬ (a.toInt = -2147483648 ∧ b.toInt = -1)) :
    (a.sdiv b).toInt = Int.tdiv a.toInt b.toInt := by
  rw [toInt_eq_min_iff, toInt_eq_neg_one_iff, not_and_or] at h
  exact BitVec.toInt_sdiv_of_ne_or_ne a b h

/-- The overflowing quotient wraps to the dividend. -/
theorem toInt_sdiv_of_overflow {a b : Word} (ha : a.toInt = -2147483648) (hb : b.toInt = -1) :
    (a.sdiv b).toInt = -2147483648 := by
  rw [toInt_eq_min_iff] at ha ⊢
  rw [ha, (toInt_eq_neg_one_iff b).1 hb, BitVec.intMin_sdiv_neg_one]

/-- Settles O33: by the divisor, 0 or not, and the quotient of words, overflowing or not. -/
theorem divTruncatesTowardZero : Obligations.DivTruncatesTowardZero := fun s arg lvl =>
  ⟨encodedAs_of_opcode (.div arg lvl) rfl (by decide),
    fun v h hv => ⟨s.acc.sdiv v, exec_div h hv, rfl, toInt_sdiv_of_not_overflow, toInt_sdiv_of_overflow⟩,
    exec_div_zero, commonFailures (i := .div arg lvl) rfl rfl s⟩

end Sys2Proof.Machine
end

section
/-! SUPPORT. AND, NOT, CMPZ and CMPL (43_logic_compare.md): the word a truth value is delivered as (R114), what each of the
four leaves in `acc` (R110 to R113), and the failures of those that read a cell. -/

namespace Sys2Proof.Machine

/-! ### Truth words -/

/-- A condition is delivered as 1 where it holds and as 0 where it does not (R114). -/
theorem truthWord_eq_ite {b : Bool} {p : Prop} [Decidable p] (h : b = true ↔ p) :
    truthWord b = if p then 1 else 0 := by
  simp only [truthWord, h]

@[simp] theorem isZero_iff (w : Word) : isZero w = true ↔ w = 0 := decide_eq_true_iff

/-- The sign of a word is its bit 31 (R113). -/
theorem isNegative_eq_msb (w : Word) : isNegative w = w.msb := BitVec.msb_eq_toInt.symm

theorem both_nonzero_iff (v w : Word) : (!isZero v && !isZero w) = true ↔ v ≠ 0 ∧ w ≠ 0 := by
  simp [← Bool.not_eq_true]

/-! ### AND and NOT -/

/-- The failures of an instruction with value operands at levels 0 and 1 only: another level, or a direct address out of
range. -/
theorem failures_of_levels_zero_one {i : Instr} (hmin : i.mnemonic.descriptor.min = 0)
    (hmax : i.mnemonic.descriptor.max = 1) (s : State) :
    ((i.lvl < 0 ∨ 1 < i.lvl) → exec i s = .next (s.failed .invalidIndirection i.lvl)) ∧
      (i.lvl = 1 → ¬ InRange i.arg → exec i s = .next (s.failed .outOfRange i.arg.toInt)) := by
  refine ⟨fun hlvl => illegalLevelFailsFirst i s ?_, fun hlvl harg => exec_of_operandFails hmin ?_ ?_⟩
  · rwa [hmin, hmax]
  · exact (hlvl.trans hmax.symm).le
  · exact .inl ⟨.inl hlvl, harg, rfl⟩

theorem exec_and {arg v : Word} {lvl : Int} {s : State} (hlvl : lvl ≤ 1) (h : Operand s lvl arg v) :
    exec (.and arg lvl) s = .next (s.setAcc (if v ≠ 0 ∧ s.acc ≠ 0 then 1 else 0)).advance := by
  unfold exec execAnd
  exact withOperand_of_operand rfl hlvl h (by rw [truthWord_eq_ite (both_nonzero_iff v s.acc)])

theorem exec_not {arg : Word} {lvl : Int} {s : State} (hlvl : lvl = 0) :
    exec (.not arg lvl) s = .next (s.setAcc (if s.acc = 0 then 1 else 0)).advance := by
  subst hlvl
  unfold exec execNot
  exact withOperand_completes rfl (resolve_base rfl) (by rw [truthWord_eq_ite (isZero_iff s.acc)])

/-- Settles O34: by the outcome of resolving the operand, at the two levels AND allows. -/
theorem andIsLogical : Obligations.AndIsLogical := fun s arg lvl =>
  ⟨encodedAs_of_opcode (.and arg lvl) rfl (by decide), fun _ hlvl h => exec_and hlvl h,
    failures_of_levels_zero_one (i := .and arg lvl) rfl rfl s⟩

/-- Settles O35: level 0 is the base level, so no cell is read, and every other level is outside NOT's interval. -/
theorem notIsLogical : Obligations.NotIsLogical := fun s arg lvl =>
  ⟨encodedAs_of_opcode (.not arg lvl) rfl (by decide), exec_not,
    fun hlvl => illegalLevelFailsFirst (.not arg lvl) s (lt_or_gt_of_ne hlvl)⟩

/-! ### CMPZ and CMPL

Level 1 is their base level: the terminal operand is the address, and the semantics read the cell (R112, R113). -/

section
variable {arg : Word} {lvl : Int} {s : State}

theorem exec_cmpz (hlvl : lvl = 1) (harg : InRange arg) :
    exec (.cmpz arg lvl) s = .next (s.setAcc (if s.cell arg = 0 then 1 else 0)).advance := by
  subst hlvl
  unfold exec execCmpz
  refine withOperand_completes rfl (resolve_base rfl) ?_
  rw [memRead_in harg, ← truthWord_eq_ite (isZero_iff (s.cell arg)), State.cell]

theorem exec_cmpz_outOfRange (hlvl : lvl = 1) (harg : ¬ InRange arg) :
    exec (.cmpz arg lvl) s = .next (s.failed .outOfRange arg.toInt) := by
  subst hlvl
  unfold exec execCmpz
  exact withOperand_fails rfl (resolve_base rfl) (by rw [memRead_out harg])

theorem exec_cmpl (hlvl : lvl = 1) (harg : InRange arg) :
    exec (.cmpl arg lvl) s = .next (s.setAcc (if (s.cell arg).msb then 1 else 0)).advance := by
  subst hlvl
  unfold exec execCmpl
  refine withOperand_completes rfl (resolve_base rfl) ?_
  rw [memRead_in harg, ← truthWord, ← isNegative_eq_msb, State.cell]

theorem exec_cmpl_outOfRange (hlvl : lvl = 1) (harg : ¬ InRange arg) :
    exec (.cmpl arg lvl) s = .next (s.failed .outOfRange arg.toInt) := by
  subst hlvl
  unfold exec execCmpl
  exact withOperand_fails rfl (resolve_base rfl) (by rw [memRead_out harg])

end

/-- Settles O36: by the outcome of reading the cell, at the one level CMPZ allows. -/
theorem cmpzTestsTheCellForZero : Obligations.CmpzTestsTheCellForZero := fun s arg lvl =>
  ⟨encodedAs_of_opcode (.cmpz arg lvl) rfl (by decide), exec_cmpz,
    fun hlvl => illegalLevelFailsFirst (.cmpz arg lvl) s (lt_or_gt_of_ne hlvl), exec_cmpz_outOfRange⟩

/-- Settles O37: by the outcome of reading the cell, whose sign is its bit 31. -/
theorem cmplTestsTheSignOfTheCell : Obligations.CmplTestsTheSignOfTheCell := fun s arg lvl =>
  ⟨encodedAs_of_opcode (.cmpl arg lvl) rfl (by decide), exec_cmpl,
    fun hlvl => illegalLevelFailsFirst (.cmpl arg lvl) s (lt_or_gt_of_ne hlvl), exec_cmpl_outOfRange⟩

end Sys2Proof.Machine
end

section
/-! SUPPORT. JUMP, JMPZ and HALT (44_control.md): what the two jumps leave in `pc` (R120, R121), the fetch after a jump to no
slot (R72), and the halt strategy and `start` around a HALT (R82, R84, R122). -/

namespace Sys2Proof.Machine

section
variable {arg v : Word} {lvl : Int} {s : State}

/-! ### JUMP and JMPZ -/

theorem exec_jump (hlvl : lvl ≤ 1) (h : Operand s lvl arg v) : exec (.jump arg lvl) s = .next (s.setPc v) := by
  unfold exec execJump
  exact withOperand_of_operand rfl hlvl h rfl

theorem exec_jmpz (hlvl : lvl ≤ 1) (h : Operand s lvl arg v) :
    exec (.jmpz arg lvl) s = .next (s.setPc (if s.acc = 0 then v else s.pc + 1)) := by
  unfold exec execJmpz
  refine withOperand_of_operand rfl hlvl h ?_
  by_cases hacc : s.acc = 0
  · rw [if_pos ((isZero_iff s.acc).2 hacc), if_pos hacc]
  · rw [if_neg (mt (isZero_iff s.acc).1 hacc), if_neg hacc, State.advance, State.setPc]

/-- A target that names no slot fails at the next fetch, and only there (R72, R120). -/
theorem step_setPc_out (hv : v.toInt < 0 ∨ (s.code.length : Int) ≤ v.toInt) (hterm : s.terminated = false)
    (hrun : s.running = true) : step (s.setPc v) = .next ((s.setPc v).failed .fetchOutOfRange v.toInt) :=
  step_of_no_fetch hterm hrun (fetch_out (s := s.setPc v) hv)

/-! ### HALT -/

theorem haltStrategy_interactive (hmode : s.config.haltMode = .interactive) :
    haltStrategy s = { s with running := false } := by
  simp only [haltStrategy, hmode]

theorem haltStrategy_batch (hmode : s.config.haltMode = .batch) :
    haltStrategy s = { s with running := false, terminated := true } := by
  simp only [haltStrategy, hmode]

theorem stepStatus_of_halt (hfetch : Fetches s (encode (.halt arg 0))) : stepStatus s = .halted := by
  obtain ⟨-, hhalted, -⟩ := statusSaysHowTheStepEnded s _ _ _ hfetch (decode_encode _) (step_eq_stepState s)
  exact hhalted.2 ⟨arg, rfl⟩

theorem stepState_of_halt (hfetch : Fetches s (encode (.halt arg 0))) : stepState s = haltStrategy s :=
  stepState_of_step ((step_of_decode hfetch (decode_encode _)).trans (exec_halt arg s))

/-- `start` undoes an interactive halt: the strategy clears `running` alone, and nothing refuses the command (R84). -/
theorem start_haltStrategy (hmode : s.config.haltMode = .interactive) (hterm : s.terminated = false)
    (hrun : s.running = true) (hempty : s.fault = none) : perform .start (haltStrategy s) = s := by
  calc perform .start (haltStrategy s)
    _ = startCommand { s with running := false } := by rw [perform, haltStrategy_interactive hmode]
    _ = { s with running := true } := startCommand_allowed hterm hempty
    _ = s := by rw [← hrun]

end

/-- Settles O38: JUMP tests its level and its pointer and never the target, which the next fetch meets. -/
theorem jumpStoresAnyTarget : Obligations.JumpStoresAnyTarget := by
  intro s arg lvl
  obtain ⟨hlevel, hpointer⟩ := failures_of_levels_zero_one (i := .jump arg lvl) rfl rfl s
  exact ⟨encodedAs_of_opcode (.jump arg lvl) rfl (by decide), fun _ hlvl h => exec_jump hlvl h, hlevel, hpointer,
    fun _ => step_setPc_out⟩

/-- Settles O39: the operand is resolved first, so its failures do not ask for `acc`. -/
theorem jmpzJumpsWhenTheAccumulatorIsZero : Obligations.JmpzJumpsWhenTheAccumulatorIsZero := fun s arg lvl =>
  ⟨encodedAs_of_opcode (.jmpz arg lvl) rfl (by decide), fun _ hlvl h => exec_jmpz hlvl h,
    failures_of_levels_zero_one (i := .jmpz arg lvl) rfl rfl s⟩

/-- Settles O40: at level 0 HALT is the halt strategy of the machine's mode; every other level is outside its interval. -/
theorem haltHaltsAndKeepsPc : Obligations.HaltHaltsAndKeepsPc := by
  intro s arg lvl
  refine ⟨encodedAs_of_opcode (.halt arg lvl) rfl (by decide), ?_, ?_,
    fun hlvl => illegalLevelFailsFirst (.halt arg lvl) s (lt_or_gt_of_ne hlvl), ?_⟩
  · rintro rfl hmode
    rw [exec_halt, haltStrategy_interactive hmode]
  · rintro rfl hmode
    rw [exec_halt, haltStrategy_batch hmode]
  · rintro rfl hfetch
    have ⟨hterm, hrun, _⟩ := hfetch
    refine ⟨stepStatus_of_halt hfetch, fun hmode hempty => ?_⟩
    rw [stepState_of_halt hfetch]
    exact start_haltStrategy hmode hterm hrun hempty

end Sys2Proof.Machine
end

section
/-! SUPPORT. ROT (45_rotate.md): what an execution comes to once the checks have answered (R131 to R133, R140), the frame of
a completed ROT (R139, R141), the cells of a rotated window (R137, R140), and the spec's loops beside the closed form. -/

namespace Sys2Proof.Machine

/-! ### The control cells and the checks -/

section
variable {v : Int} {s : State} {f : FaultRecord} {c : RotControl}

theorem rotControl_first_out (h : ¬ (0 ≤ v ∧ v < 512)) : rotControl v s = .error ⟨.outOfRange, v⟩ := by
  rw [rotControl, memRead_out h]

theorem rotControl_second_out (h : 0 ≤ v ∧ v < 512) (h1 : ¬ (0 ≤ v + 1 ∧ v + 1 < 512)) :
    rotControl v s = .error ⟨.outOfRange, v + 1⟩ := by
  simp only [rotControl, memRead_in h, memRead_out h1]

theorem rotControl_third_out (h : 0 ≤ v ∧ v < 512) (h1 : 0 ≤ v + 1 ∧ v + 1 < 512)
    (h2 : ¬ (0 ≤ v + 2 ∧ v + 2 < 512)) : rotControl v s = .error ⟨.outOfRange, v + 2⟩ := by
  simp only [rotControl, memRead_in h, memRead_in h1, memRead_out h2]

theorem rotCheck_of_unread (h : rotControl v s = .error f) : rotCheck v s = .error f := by
  rw [rotCheck, h]

theorem rotCheck_of_invalid (h : rotControl v s = .ok c) (hv : c.valid v = false) :
    rotCheck v s = .error ⟨.rangeError, v⟩ := by
  simp [rotCheck, h, hv]

/-- The compat pre-check comes after the validation of the window and before any write (R140). -/
theorem rotCheck_of_overrun (h : rotControl v s = .ok c) (hv : c.valid v = true)
    (ho : c.overruns s.config.rotMode = true) : rotCheck v s = .error ⟨.outOfRange, c.start + c.length⟩ := by
  simp [rotCheck, h, hv, ho]

end

/-! ### ROT after its checks -/

theorem exec_rot_completes {s : State} {arg : Word} {c : RotControl} (h : rotCheck arg.toInt s = .ok c) :
    exec (.rot arg 0) s = .next (rotateWindow c s).freeScratch.advance := by
  unfold exec
  exact execRot_next h

theorem exec_rot_fails {s : State} {arg : Word} {f : FaultRecord} (h : rotCheck arg.toInt s = .error f) :
    exec (.rot arg 0) s = .next (s.failed f.cause f.info) := by
  unfold exec
  exact execRot_fails h

/-- The failure of reading the control cells (R132). -/
theorem exec_rot_unread {s : State} {arg : Word} {f : FaultRecord} (h : rotControl arg.toInt s = .error f) :
    exec (.rot arg 0) s = .next (s.failed f.cause f.info) :=
  exec_rot_fails (rotCheck_of_unread h)

/-- Settles O46: level 0 is ROT's whole interval. -/
theorem rotDecodesAndAllowsLevelZeroOnly : Obligations.RotDecodesAndAllowsLevelZeroOnly := fun s arg lvl =>
  ⟨encodedAs_of_opcode (.rot arg lvl) rfl (by decide),
    fun hlvl => illegalLevelFailsFirst (.rot arg lvl) s (lt_or_gt_of_ne hlvl)⟩

/-- Settles O44: by the first of the three reads that is out of range. -/
theorem rotControlCellsMustLieInMemory : Obligations.RotControlCellsMustLieInMemory := by
  intro s arg
  refine ⟨fun hout => exec_rot_unread (rotControl_first_out (by omega)), fun h511 => ?_, fun h510 => ?_⟩
  · rw [show (512 : Int) = arg.toInt + 1 by omega]
    exact exec_rot_unread (rotControl_second_out (by omega) (by omega))
  · rw [show (512 : Int) = arg.toInt + 2 by omega]
    exact exec_rot_unread (rotControl_third_out (by omega) (by omega) (by omega))

/-- Settles O45: each of the four conditions makes the window invalid. -/
theorem rotInvalidWindowFails : Obligations.RotInvalidWindowFails := by
  intro s arg a l m hblock hbad
  refine exec_rot_fails (rotCheck_of_invalid (rotControl_of_block hblock) ?_)
  rw [Bool.eq_false_iff, ne_eq, RotControl.valid_iff]
  dsimp only
  omega

/-! ### ROT at a valid control block -/

section
variable {s : State} {arg : Word} {a l : Nat} {m : Int}

/-- A valid window completes, but for a compat left rotation that has no cell above the window (R133, R140). -/
theorem exec_rot_of_block (h : ControlBlock s arg a l m) (hv : ValidWindow arg.toInt a l)
    (hroom : s.config.rotMode = .compat → m < 0 → 1 ≤ l → a + l ≤ 511) :
    exec (.rot arg 0) s = .next (rotateWindow ⟨a, l, m⟩ s).freeScratch.advance := by
  refine exec_rot_completes (rotCheck_of_block h hv ?_)
  rintro ⟨hmode, hm, hl, hover⟩
  have := hroom hmode hm (by omega)
  omega

theorem exec_rot_overrun (h : ControlBlock s arg a l m) (hv : ValidWindow arg.toInt a l) (hl : 1 ≤ l)
    (hmode : s.config.rotMode = .compat) (hm : m < 0) (hover : 511 < a + l) :
    exec (.rot arg 0) s = .next (s.failed .outOfRange (a + l : Nat)) := by
  have hvalid := (RotControl.valid_iff ⟨a, l, m⟩ arg.toInt).2 hv
  have hl' : (1 : Int) ≤ l := by omega
  have hover' : (511 : Int) < a + l := by omega
  have hoverruns := (RotControl.overruns_iff ⟨a, l, m⟩ s.config.rotMode).2 ⟨hmode, hm, hl', hover'⟩
  exact exec_rot_fails (rotCheck_of_overrun (rotControl_of_block h) hvalid hoverruns)

theorem rotateWindow_of_nothing (h : m = 0 ∨ l = 0) : rotateWindow ⟨a, l, m⟩ s = s :=
  if_pos (by simpa using h)

/-- The frame of a completed ROT that leaves its marker at `b`: beyond memory and the marker, only the scratch register, its
counter and `pc` change (R19, R141). -/
theorem completedRot_eq_of_marker {c : RotControl} {b : Nat} (h : (rotateWindow c s).lastChanged = some b) :
    (rotateWindow c s).freeScratch.advance =
      { s with
        mem := (rotateWindow c s).freeScratch.advance.mem, lastChanged := some b
        scratch := (rotateWindow c s).freeScratch.advance.scratch
        freeIndex := (rotateWindow c s).freeScratch.advance.freeIndex, pc := s.pc + 1 } := by
  rw [← h]
  unfold rotateWindow
  split <;> rfl

/-! The marker: the low end of the window after a right rotation, its high end or the cell above after a left one (R139,
R140). -/

theorem rotateWindow_lastChanged_right (hm : 0 < m) (hl : 1 ≤ l) : (rotateWindow ⟨a, l, m⟩ s).lastChanged = some a := by
  rw [rotateWindow_lastChanged hm.ne' hl, if_pos hm]

theorem rotateWindow_lastChanged_left_fixed (hm : m < 0) (hl : 1 ≤ l) (hmode : s.config.rotMode = .fixed) :
    (rotateWindow ⟨a, l, m⟩ s).lastChanged = some (a + l - 1) := by
  rw [rotateWindow_lastChanged hm.ne hl, if_neg hm.not_gt, hmode]

theorem rotateWindow_lastChanged_left_compat (hm : m < 0) (hl : 1 ≤ l) (hmode : s.config.rotMode = .compat) :
    (rotateWindow ⟨a, l, m⟩ s).lastChanged = some (a + l) := by
  rw [rotateWindow_lastChanged hm.ne hl, if_neg hm.not_gt, hmode]

end

/-- Settles O42: the closed form is the identity on such a block. -/
theorem rotOfNothingOnlyAdvances : Obligations.RotOfNothingOnlyAdvances := by
  intro s arg a l m hblock hv hnothing
  have hexec := exec_rot_of_block hblock hv fun _ hm hl => by omega
  rw [rotateWindow_of_nothing hnothing] at hexec
  exact ⟨_, hexec, rfl⟩

/-! ### The cells of a rotated window -/

/-- Reading `k` cells below offset `i`, counted around a window of `l` cells, is reading `l - k` cells above (R137). -/
theorem right_source_eq {i k l : Nat} (hk : k ≤ l) : (((i : Int) - k) % l).toNat = (i + (l - k)) % l := by
  have hup : (i : Int) - k + l = (i + (l - k) : Nat) := by omega
  rw [← Int.add_emod_right, hup]
  exact Int.toNat_natCast _

/-- A cell of the window, by its offset from the low end. -/
theorem offset_in_window {a l i : Nat} (hi : i < l) : a ≤ a + i ∧ a + i < a + l := by omega

/-- Two memories that read alike in a window and outside it read alike everywhere. -/
theorem reads_eq_of_window {mem mem' : Memory} {a l : Nat} (hin : ∀ i, i < l → mem'.read (a + i) = mem.read (a + i))
    (hout : ∀ b, (b < a ∨ a + l ≤ b) → mem'.read b = mem.read b) (b : Nat) : mem'.read b = mem.read b := by
  by_cases hb : b < a ∨ a + l ≤ b
  · exact hout b hb
  · have := hin (b - a) (by omega)
    rwa [Nat.add_sub_cancel' (by omega)] at this

section
variable {s : State} {a l : Nat} {m : Int}

/-! The left rotation in fixed mode. -/

theorem read_window_left_fixed (hm : m < 0) (hmode : s.config.rotMode = .fixed) (i : Nat) (hi : i < l) :
    (rotateWindow ⟨a, l, m⟩ s).mem.read (a + i) = s.mem.read (a + (i + m.natAbs % l) % l) := by
  rw [read_rotateWindow_left_fixed hm (by omega) hmode, if_pos (offset_in_window hi), Nat.add_sub_cancel_left,
    Nat.add_mod_mod]

theorem read_outside_left_fixed (hm : m < 0) (hl : 1 ≤ l) (hmode : s.config.rotMode = .fixed) (b : Nat)
    (hb : b < a ∨ a + l ≤ b) : (rotateWindow ⟨a, l, m⟩ s).mem.read b = s.mem.read b := by
  rw [read_rotateWindow_left_fixed hm hl hmode, if_neg (by omega)]

theorem read_full_turn_left_fixed (hm : m < 0) (hl : 1 ≤ l) (hmode : s.config.rotMode = .fixed)
    (hturn : m.natAbs % l = 0) : ∀ b, (rotateWindow ⟨a, l, m⟩ s).mem.read b = s.mem.read b := by
  refine reads_eq_of_window (fun i hi => ?_) (read_outside_left_fixed hm hl hmode)
  rw [read_window_left_fixed hm hmode i hi, hturn, Nat.add_zero, Nat.mod_eq_of_lt hi]

/-! The right rotation, in either mode. -/

theorem read_window_right (hm : 0 < m) (i : Nat) (hi : i < l) :
    (rotateWindow ⟨a, l, m⟩ s).mem.read (a + i) =
      s.mem.read (a + (((i : Int) - (m.natAbs % l : Nat)) % (l : Int)).toNat) := by
  have hk : m.natAbs % l ≤ l := (Nat.mod_lt _ (by omega)).le
  rw [read_rotateWindow_right hm (by omega), if_pos (offset_in_window hi), Nat.add_sub_cancel_left, right_source_eq hk]

theorem read_outside_right (hm : 0 < m) (hl : 1 ≤ l) (b : Nat) (hb : b < a ∨ a + l ≤ b) :
    (rotateWindow ⟨a, l, m⟩ s).mem.read b = s.mem.read b := by
  rw [read_rotateWindow_right hm hl, if_neg (by omega)]

theorem read_full_turn_right (hm : 0 < m) (hl : 1 ≤ l) (hturn : m.natAbs % l = 0) :
    ∀ b, (rotateWindow ⟨a, l, m⟩ s).mem.read b = s.mem.read b := by
  refine reads_eq_of_window (fun i hi => ?_) (read_outside_right hm hl)
  rw [read_window_right hm i hi, hturn, right_source_eq (Nat.zero_le l), Nat.sub_zero, Nat.add_mod_right,
    Nat.mod_eq_of_lt hi]

/-! The left rotation in compat mode. -/

theorem read_window_left_compat (hm : m < 0) (hmode : s.config.rotMode = .compat) (i : Nat) (hi : i < l) :
    (rotateWindow ⟨a, l, m⟩ s).mem.read (a + i) = s.mem.read (a + min (i + m.natAbs) (l - 1)) := by
  rw [read_rotateWindow_left_compat hm (by omega) hmode, if_pos (offset_in_window hi), Nat.add_sub_cancel_left]

theorem read_above_left_compat (hm : m < 0) (hl : 1 ≤ l) (hmode : s.config.rotMode = .compat) :
    (rotateWindow ⟨a, l, m⟩ s).mem.read (a + l) = s.mem.read (a + min (m.natAbs - 1) (l - 1)) := by
  rw [read_rotateWindow_left_compat hm hl hmode, if_neg (by omega), if_pos rfl]

theorem read_outside_left_compat (hm : m < 0) (hl : 1 ≤ l) (hmode : s.config.rotMode = .compat) (b : Nat)
    (hb : b < a ∨ a + l < b) : (rotateWindow ⟨a, l, m⟩ s).mem.read b = s.mem.read b := by
  rw [read_rotateWindow_left_compat hm hl hmode, if_neg (by omega), if_neg (by omega)]

end

/-- Settles O41: by the direction, with what the closed form leaves in the window, outside it, and after a full turn. -/
theorem rotRotatesTheWindow : Obligations.RotRotatesTheWindow := by
  intro s arg a l m hblock hv hl
  constructor
  · intro hm hmode
    exact ⟨_, exec_rot_of_block hblock hv (by simp [hmode]),
      completedRot_eq_of_marker (rotateWindow_lastChanged_left_fixed hm hl hmode), read_window_left_fixed hm hmode,
      read_outside_left_fixed hm hl hmode, read_full_turn_left_fixed hm hl hmode⟩
  · intro hm
    exact ⟨_, exec_rot_of_block hblock hv fun _ hneg => absurd hneg hm.not_gt,
      completedRot_eq_of_marker (rotateWindow_lastChanged_right hm hl), read_window_right hm,
      read_outside_right hm hl, read_full_turn_right hm hl⟩

/-- Settles O43: by whether the cell above the window lies in memory. -/
theorem rotCompatSmearsTheWindow : Obligations.RotCompatSmearsTheWindow := by
  intro s arg a l m hblock hv hl hmode hm
  exact ⟨exec_rot_overrun hblock hv hl hmode hm, fun hroom =>
    ⟨_, exec_rot_of_block hblock hv fun _ _ _ => hroom,
      completedRot_eq_of_marker (rotateWindow_lastChanged_left_compat hm hl hmode), read_window_left_compat hm hmode,
      read_above_left_compat hm hl hmode, read_outside_left_compat hm hl hmode⟩⟩

/-! ### The spec's loops -/

section
variable {s : State} {a l : Nat} {m : Int}

theorem rotateLoops_of_nothing (h : m = 0 ∨ l = 0) : rotateLoops ⟨a, l, m⟩ s = s := by
  rcases h with rfl | rfl <;> simp [rotateLoops]

theorem rotateLoops_left_fixed (hm : m < 0) (hl : 1 ≤ l) (hmode : s.config.rotMode = .fixed) :
    rotateLoops ⟨a, l, m⟩ s = repeatTimes m.natAbs (rotateLeftOne a l) s := by
  simp [rotateLoops, hm, hmode, show l ≠ 0 by omega]

theorem rotateLoops_left_compat (hm : m < 0) (hl : 1 ≤ l) (hmode : s.config.rotMode = .compat) :
    rotateLoops ⟨a, l, m⟩ s = repeatTimes m.natAbs (rotateLeftOneCompat a l) s := by
  simp [rotateLoops, hm, hmode, show l ≠ 0 by omega]

theorem rotateLoops_right (hm : 0 < m) (hl : 1 ≤ l) :
    rotateLoops ⟨a, l, m⟩ s = repeatTimes m.natAbs (rotateRightOne a l) s := by
  simp [rotateLoops, hm, hm.not_gt, show l ≠ 0 by omega]

/-- When every iteration leaves the marker at `b`, so does a repeat loop that runs at least once. -/
theorem lastChanged_repeatTimes {f : State → State} {b n : Nat} (hf : ∀ s, (f s).lastChanged = some b) (hn : n ≠ 0) :
    (repeatTimes n f s).lastChanged = some b := by
  obtain ⟨k, rfl⟩ := Nat.exists_eq_succ_of_ne_zero hn
  rw [repeatTimes_succ, hf]

/-- The closed form and the loops leave the same marker and the same cells, of any window and in either mode. -/
theorem rotateWindow_eq_rotateLoops (s : State) (a l : Nat) (m : Int) :
    (rotateWindow ⟨a, l, m⟩ s).lastChanged = (rotateLoops ⟨a, l, m⟩ s).lastChanged ∧
      ∀ b, (rotateWindow ⟨a, l, m⟩ s).mem.read b = (rotateLoops ⟨a, l, m⟩ s).mem.read b := by
  by_cases hnothing : m = 0 ∨ l = 0
  · rw [rotateWindow_of_nothing hnothing, rotateLoops_of_nothing hnothing]
    exact ⟨rfl, fun _ => rfl⟩
  have hl : 1 ≤ l := by omega
  have hn : m.natAbs ≠ 0 := by omega
  rcases lt_or_gt_of_ne (show m ≠ 0 by omega) with hm | hm
  · cases hmode : s.config.rotMode with
    | fixed =>
      rw [rotateLoops_left_fixed hm hl hmode, rotateWindow_lastChanged_left_fixed hm hl hmode]
      refine ⟨(lastChanged_repeatTimes (fun _ => rfl) hn).symm, fun b => ?_⟩
      rw [read_rotateWindow_left_fixed hm hl hmode, read_repeat_rotateLeftOne a l m.natAbs s hl b]
    | compat =>
      rw [rotateLoops_left_compat hm hl hmode, rotateWindow_lastChanged_left_compat hm hl hmode]
      refine ⟨(lastChanged_repeatTimes (fun _ => rfl) hn).symm, fun b => ?_⟩
      obtain ⟨n, hn⟩ := Nat.exists_eq_succ_of_ne_zero hn
      rw [read_rotateWindow_left_compat hm hl hmode, hn, read_repeat_rotateLeftOneCompat a l n s hl b,
        Nat.succ_sub_one]
  · rw [rotateLoops_right hm hl, rotateWindow_lastChanged_right hm hl]
    refine ⟨(lastChanged_repeatTimes (fun _ => rfl) hn).symm, fun b => ?_⟩
    rw [read_rotateWindow_right hm hl, read_repeat_rotateRightOne a l m.natAbs s hl b]

end

/-- Settles O47: `exec` runs the closed form, which keeps to the loops whatever the window. -/
theorem rotEqualsItsLoops : Obligations.RotEqualsItsLoops := fun s _ a l m hblock hv hroom =>
  ⟨_, exec_rot_of_block hblock hv hroom, rotateWindow_eq_rotateLoops s a l m⟩

end Sys2Proof.Machine
end

section
/-! SUPPORT. The assembler (46_assembler.md): the report key by key, the segments as parts of the source (R157, R173),
the errors of a code line (R160 to R165), and the artifact (R171). -/

namespace Sys2Proof.Assembler

/-! ### The artifact -/

theorem artifact_of_no_error {a : Assembly} (h : a.report = []) : a.artifact = some (a.code ++ sentinel :: a.data) := by
  simp [Assembly.artifact, h]

theorem artifact_of_error {a : Assembly} (h : a.report ≠ []) : a.artifact = none := by simp [Assembly.artifact, h]

theorem success_iff (a : Assembly) : a.success = true ↔ a.report = [] := List.isEmpty_iff

/-- An error-free assembly is the text of an image: the slots of the code lines and the words of the data lines. -/
theorem exists_image_of_no_error {source : List Line} (h : (assemble source).report = []) :
    ∃ image : Image, (assemble source).code ++ sentinel :: (assemble source).data = image.file ∧
      image.code.map Except.ok = (segments source).code.map encodeLine ∧
      image.data.map some = ((segments source).data.filter fun l => !l.isEmpty).map readDataLine := by
  obtain ⟨hcodeReport, data, hdata, hdataLines⟩ := encodeData_nil h
  obtain ⟨-, slots, hslots, hcodeLines⟩ := encodeCode_nil hcodeReport
  refine ⟨⟨slots, data⟩, ?_, hslots, hdata⟩
  simp only [assemble, assembleInto, Image.file, hcodeLines, hdataLines]

/-- Settles O59: without an error every line of either segment was encoded, so the artifact is the file of an image, and
every such file reads back as its image. -/
theorem assembledProgramsReadBack : Obligations.AssembledProgramsReadBack := by
  intro source hreport
  obtain ⟨image, hfile, hcode, hdata⟩ := exists_image_of_no_error hreport
  exact ⟨image.file, image, hfile ▸ artifact_of_no_error hreport, readArtifact_file image, hcode, hdata⟩

/-- Settles O60: by whether the report is empty. -/
theorem artifactOnlyWithoutErrors : Obligations.ArtifactOnlyWithoutErrors := fun _ =>
  ⟨fun h => ⟨artifact_of_error h, Bool.eq_false_iff.2 (mt (success_iff _).1 h)⟩,
    fun h => ⟨(success_iff _).2 h, artifact_of_no_error h⟩⟩

/-! ### The segments as parts of the source -/

theorem isMarker_iff (line : Line) : isMarker line = true ↔ upper (trim line) = dataMarker := beq_iff_eq

theorem miscapitalised_iff (line : Line) :
    miscapitalised line = true ↔ upper (trim line) = dataMarker ∧ trim line ≠ dataMarker := by
  simp [miscapitalised, isMarker_iff]

/-- Settles O54: the split of the scan, with the marker test as R156 writes it. -/
theorem segmentsSplitAtTheMarker : Obligations.SegmentsSplitAtTheMarker := by
  intro source
  obtain ⟨rest, hsource, hcode, hrest⟩ := segments_split source
  simp only [← isMarker_iff, ne_eq, Bool.not_eq_true]
  exact ⟨rest, hsource, hcode, hrest⟩

/-- A blank line is no line of the code segment: the position of a code line is its place in the source (R157, R173). -/
theorem code_getElem?_of_blank {source : List Line} {j : Nat} (h : source[j]? = some []) :
    (segments source).code[j]? = none := by
  obtain ⟨rest, hsource, hcode, -⟩ := segments_split source
  have hprefix : (segments source).code <+: source := ⟨rest, hsource.symm⟩
  rw [List.getElem?_eq_none_iff]
  by_contra hlt
  have hat := List.prefix_iff_getElem?.1 hprefix j (not_le.1 hlt)
  exact (hcode _ (List.getElem_mem _)).1 (Option.some.inj (hat.symm.trans h))

/-- The line at position `p` of the data segment stands that far after the marker, which follows the code (R157,
R173). -/
theorem source_getElem?_of_data {source : List Line} {p : Nat} {line : Line}
    (h : (segments source).data[p]? = some line) : source[(segments source).code.length + 1 + p]? = some line := by
  obtain ⟨rest, hsource, -, ⟨-, hdata⟩ | ⟨-, -, hdata⟩ | ⟨marker, -, -, hrest⟩⟩ := segments_split source
  · simp [hdata] at h
  · simp [hdata] at h
  · have hat : ((segments source).code ++ marker :: (segments source).data)[(segments source).code.length + 1 + p]? =
        some line := by
      rw [add_assoc, List.getElem?_append_right (Nat.le_add_right _ _), Nat.add_sub_cancel_left, Nat.add_comm 1 p,
        List.getElem?_cons_succ, h]
    rwa [← hrest, ← hsource] at hat

/-! ### One operand -/

/-- The no-argument mnemonics (R62, R161). -/
theorem arity_eq_none_iff (m : Mnemonic) : m.descriptor.arity = .none ↔ m ∈ [.nop, .not, .halt] := by
  cases m <;> decide

theorem arity_eq_one_iff (m : Mnemonic) : m.descriptor.arity = .one ↔ m ∉ [.nop, .not, .halt] := by
  cases m <;> decide

/-- The mnemonics with one operand that refuse a bare one (R62, R164). -/
theorem permitsImmediate_eq_false_iff {m : Mnemonic} (hm : m ∉ [.nop, .not, .halt]) :
    m.descriptor.permitsImmediate = false ↔ m ∈ [.sto, .cmpz, .cmpl] := by
  cases m <;> revert hm <;> decide

/-- The mnemonics that take an indirect operand (R62, R164). -/
theorem permitsIndirect_iff (m : Mnemonic) :
    m.descriptor.permitsIndirect = true ↔ m ∈ [.lod, .sto, .add, .sub, .mul, .div] := by
  cases m <;> decide

/-! The capability check of each mode (R164). -/

theorem capabilityError_immediate_of_refused {m : Mnemonic} (hm : m ∉ [.nop, .not, .halt])
    (h : m ∈ [.sto, .cmpz, .cmpl]) : capabilityError m .immediate = some .immediateNotAllowed := by
  simp [capabilityError, (permitsImmediate_eq_false_iff hm).2 h]

theorem capabilityError_immediate_of_taken {m : Mnemonic} (hm : m ∉ [.nop, .not, .halt])
    (h : m ∉ [.sto, .cmpz, .cmpl]) : capabilityError m .immediate = none := by
  simpa [capabilityError] using mt (permitsImmediate_eq_false_iff hm).1 h

theorem capabilityError_direct (m : Mnemonic) : capabilityError m .direct = none := rfl

theorem capabilityError_indirect_of_refused {m : Mnemonic} (h : m ∉ [.lod, .sto, .add, .sub, .mul, .div]) :
    capabilityError m .indirect = some .indirectNotAllowed := by
  simp [capabilityError, Bool.eq_false_iff.2 (mt (permitsIndirect_iff m).1 h)]

theorem capabilityError_indirect_of_taken {m : Mnemonic} (h : m ∈ [.lod, .sto, .add, .sub, .mul, .div]) :
    capabilityError m .indirect = none := by
  simp [capabilityError, (permitsIndirect_iff m).2 h]

/-! The selector on an open or a closed operand (R162). -/

theorem selectMode_immediate {h : Line} (hh : h.head? ≠ some '[') : selectMode h = .immediate := by
  unfold selectMode
  split
  · exact absurd rfl hh
  · exact absurd rfl hh
  · rfl

theorem selectMode_direct {h : Line} (hh : h.head? ≠ some '[') : selectMode ('[' :: h) = .direct := by
  unfold selectMode
  split
  · next heq => exact absurd (congrArg List.head? (List.cons.inj heq).2) hh
  · rfl
  · next hdirect => exact absurd rfl (hdirect h)

theorem selectMode_direct_closed {h : Line} (hh : h.head? ≠ some '[') : selectMode ('[' :: h ++ [']']) = .direct := by
  apply selectMode_direct
  cases h with
  | nil => decide
  | cons c rest => exact hh

theorem selectMode_indirect (h : Line) : selectMode ('[' :: '[' :: h) = .indirect := rfl

section
variable {m : Mnemonic} {o : Line} {mode : Mode}

/-- The capability check answers first (R164). -/
theorem encodeOperand_of_capabilityError {e : ErrorKind} (hmode : selectMode o = mode)
    (hcap : capabilityError m mode = some e) : encodeOperand m o = .error e := by
  subst hmode
  simp [encodeOperand, hcap]

/-- A permitted mode and a numeral make the slot (R167). -/
theorem encodeOperand_of_numeral {n : Word} (hmode : selectMode o = mode) (hcap : capabilityError m mode = none)
    (hn : operandNumeral mode o = some n) : encodeOperand m o = .ok ⟨m.opcode, n, mode.level⟩ := by
  subst hmode
  simp [encodeOperand, hcap, hn]

/-- A permitted mode without a numeral gives the mode's own error (R165). -/
theorem encodeOperand_of_notHex (hmode : selectMode o = mode) (hcap : capabilityError m mode = none)
    (hn : operandNumeral mode o = none) : encodeOperand m o = .error mode.notHex := by
  subst hmode
  simp [encodeOperand, hcap, hn]

end

/-! The numeral of an operand token, its brackets closed or left open (R165). -/

theorem operandNumeral_immediate (h : Line) : operandNumeral .immediate h = hexNumeral h := rfl

theorem operandNumeral_direct (h : Line) : operandNumeral .direct ('[' :: h ++ [']']) = hexNumeral h := by
  simp [operandNumeral, operandText, stripClose_append]

theorem operandNumeral_direct_open {h : Line} (hh : h.getLast? ≠ some ']') :
    operandNumeral .direct ('[' :: h) = none := by
  simp [operandNumeral, operandText, stripClose_none hh]

theorem operandNumeral_indirect (h : Line) :
    operandNumeral .indirect ('[' :: '[' :: h ++ [']', ']']) = hexNumeral h := by
  have hclose : stripClose (h ++ [']', ']']) = some (h ++ [']']) := by
    rw [← stripClose_append (h ++ [']']), List.append_assoc, List.singleton_append]
  simp [operandNumeral, operandText, hclose, stripClose_append]

/-- What `stripClose` answers is the text in front of a closing bracket. -/
theorem eq_append_of_stripClose {text inner : Line} (h : stripClose text = some inner) : text = inner ++ [']'] := by
  by_cases hlast : text.getLast? = some ']'
  · obtain ⟨x, rfl⟩ := List.getLast?_eq_some_iff.1 hlast
    rw [stripClose_append] at h
    rw [Option.some.inj h]
  · rw [stripClose_none hlast] at h
    cases h

theorem operandNumeral_indirect_open {h : Line} (hh : ∀ x, h ≠ x ++ [']', ']']) :
    operandNumeral .indirect ('[' :: '[' :: h) = none := by
  cases houter : stripClose h with
  | none => simp [operandNumeral, operandText, houter]
  | some inner =>
    cases hinner : stripClose inner with
    | none => simp [operandNumeral, operandText, houter, hinner]
    | some x =>
      have hclosed : h = x ++ [']', ']'] := by
        rw [eq_append_of_stripClose houter, eq_append_of_stripClose hinner, List.append_assoc, List.singleton_append]
      exact absurd hclosed (hh x)

/-- Settles O56: in each of the three modes by the capability check and then the numeral. -/
theorem selectorAndEncoder : Obligations.SelectorAndEncoder := by
  intro m h hm hh
  have himmediate := selectMode_immediate hh
  refine ⟨fun hrefuses => ?_, fun htakes => ?_, fun n hn => ?_, fun hn => ?_, fun hopen => ?_, fun hrefuses => ?_,
    fun htakes => ?_⟩
  · exact encodeOperand_of_capabilityError himmediate (capabilityError_immediate_of_refused hm hrefuses)
  · have hcap := capabilityError_immediate_of_taken hm htakes
    exact ⟨fun n hn => encodeOperand_of_numeral himmediate hcap ((operandNumeral_immediate h).trans hn),
      fun hn => encodeOperand_of_notHex himmediate hcap ((operandNumeral_immediate h).trans hn)⟩
  · exact encodeOperand_of_numeral (selectMode_direct_closed hh) (capabilityError_direct m)
      ((operandNumeral_direct h).trans hn)
  · exact encodeOperand_of_notHex (selectMode_direct_closed hh) (capabilityError_direct m)
      ((operandNumeral_direct h).trans hn)
  · exact encodeOperand_of_notHex (selectMode_direct hh) (capabilityError_direct m) (operandNumeral_direct_open hopen)
  · exact encodeOperand_of_capabilityError (selectMode_indirect h) (capabilityError_indirect_of_refused hrefuses)
  · have hcap := capabilityError_indirect_of_taken htakes
    exact ⟨fun n hn => encodeOperand_of_numeral (selectMode_indirect _) hcap ((operandNumeral_indirect h).trans hn),
      fun hn => encodeOperand_of_notHex (selectMode_indirect _) hcap ((operandNumeral_indirect h).trans hn),
      fun hopen => encodeOperand_of_notHex (selectMode_indirect h) hcap (operandNumeral_indirect_open hopen)⟩

/-! ### One code line -/

section
variable {m : Mnemonic} {line w : Line} {args : List Line}

theorem encodeLine_of_mnemonic (htokens : tokens line = w :: args) (hname : mnemonicName m = w) :
    encodeLine line = encodeArguments m args := by
  simp [encodeLine, htokens, (lookupMnemonic_iff w m).2 hname]

theorem encodeLine_of_notUppercase (htokens : tokens line = w :: args) (hexact : ∀ m, mnemonicName m ≠ w)
    (hupper : mnemonicName m = upper w) : encodeLine line = .error .mnemonicNotUppercase := by
  simp [encodeLine, htokens, (lookupMnemonic_none w).2 hexact, (lookupMnemonic_iff (upper w) m).2 hupper]

theorem encodeLine_of_notAMnemonic (htokens : tokens line = w :: args) (hexact : ∀ m, mnemonicName m ≠ w)
    (hupper : ∀ m, mnemonicName m ≠ upper w) : encodeLine line = .error .notAMnemonic := by
  simp [encodeLine, htokens, (lookupMnemonic_none w).2 hexact, (lookupMnemonic_none (upper w)).2 hupper]

theorem encodeLine_of_no_tokens (htokens : tokens line = []) : encodeLine line = .error .notAMnemonic := by
  simp [encodeLine, htokens]

theorem encodeArguments_none_nil (harity : m.descriptor.arity = .none) :
    encodeArguments m [] = .ok ⟨m.opcode, 0, 0⟩ := by simp [encodeArguments, harity]

theorem encodeArguments_none_of_ne_nil (harity : m.descriptor.arity = .none) (hargs : args ≠ []) :
    encodeArguments m args = .error .noArgumentsAllowed := by
  obtain ⟨o, rest, rfl⟩ := List.exists_cons_of_ne_nil hargs
  simp [encodeArguments, harity]

theorem encodeArguments_one_nil (harity : m.descriptor.arity = .one) :
    encodeArguments m [] = .error .notEnoughArguments := by simp [encodeArguments, harity]

theorem encodeArguments_one_singleton (harity : m.descriptor.arity = .one) (o : Line) :
    encodeArguments m [o] = encodeOperand m o := by simp [encodeArguments, harity]

theorem encodeArguments_one_of_many (harity : m.descriptor.arity = .one) (hargs : 1 < args.length) :
    encodeArguments m args = .error .tooManyArguments := by
  match args, hargs with
  | _ :: _ :: _, _ => simp [encodeArguments, harity]

end

/-- Settles O55: the lookup of the first token, then the arity class of the mnemonic found. -/
theorem mnemonicAndArityErrors : Obligations.MnemonicAndArityErrors := by
  refine fun line => ⟨encodeLine_of_no_tokens, fun w args htokens => ⟨?_, ?_, ?_, ?_, ?_, ?_, ?_⟩⟩
  · rintro hexact ⟨m, hupper⟩
    exact encodeLine_of_notUppercase htokens hexact hupper
  · exact encodeLine_of_notAMnemonic htokens
  · intro m hname hm hargs
    rw [encodeLine_of_mnemonic htokens hname, encodeArguments_none_of_ne_nil ((arity_eq_none_iff m).2 hm) hargs]
  · rintro m hname hm rfl
    rw [encodeLine_of_mnemonic htokens hname, encodeArguments_none_nil ((arity_eq_none_iff m).2 hm)]
  · rintro m hname hm rfl
    rw [encodeLine_of_mnemonic htokens hname, encodeArguments_one_nil ((arity_eq_one_iff m).2 hm)]
  · intro m hname hm hargs
    rw [encodeLine_of_mnemonic htokens hname, encodeArguments_one_of_many ((arity_eq_one_iff m).2 hm) hargs]
  · rintro m o hname hm rfl
    rw [encodeLine_of_mnemonic htokens hname, encodeArguments_one_singleton ((arity_eq_one_iff m).2 hm)]

/-! ### The report, key by key -/

/-- What phase 1 leaves in the report (R154, R155). -/
def phase1Report (source : List Line) : Report := checkBlanks 1 source (checkStarts 1 source [])

/-- What phase 3 reports at a key: the error of the code line with that number (R158). -/
def codeErrorAt (source : List Line) (k : Nat) : Option ErrorKind :=
  if 1 ≤ k then ((segments source).code[k - 1]?).bind lineError else none

/-- The message at a key of the whole report: a bad data line's, else a bad code line's, else a miscapitalised marker's,
else what phase 1 left there (R152). -/
theorem get_report_assemble (source : List Line) (k : Nat) : (assemble source).report.get k =
    if (segments source).code.length + 2 ≤ k ∧
        ((segments source).data[k - ((segments source).code.length + 2)]?).any badData then some .dataNotHex
    else (codeErrorAt source k).orElse fun _ =>
      if 1 ≤ k ∧ (source[k - 1]?).any miscapitalised then some .dataNotCapitalized
      else (phase1Report source).get k := by
  simp only [assemble, assembleInto, get_encodeData, get_encodeCode, get_checkMarkers, codeErrorAt, phase1Report]

/-- The blank-line check reports once or not at all (R155). -/
theorem checkBlanks_eq_or_set (lines : List Line) (i : Nat) (r : Report) :
    checkBlanks i lines r = r ∨ ∃ k, checkBlanks i lines r = r.set k .illegalBlankLine := by
  induction lines generalizing i with
  | nil => exact .inl rfl
  | cons line rest ih =>
    unfold checkBlanks
    split
    · split
      · exact .inr ⟨i, rfl⟩
      · exact .inl rfl
    · exact ih (i + 1)

/-- The blank-line check removes no message. -/
theorem get_checkBlanks_ne_none {r : Report} {k : Nat} (h : r.get k ≠ none) (lines : List Line) (i : Nat) :
    (checkBlanks i lines r).get k ≠ none := by
  obtain heq | ⟨j, heq⟩ := checkBlanks_eq_or_set lines i r
  · rwa [heq]
  · rw [heq, Report.get_set]
    split
    · simp
    · exact h

/-- Where phase 1 or the marker check reported, the whole report has a message: a later phase only replaces one (R152). -/
theorem get_report_ne_none {source : List Line} {k : Nat}
    (h : 1 ≤ k ∧ (source[k - 1]?).any miscapitalised = true ∨ (phase1Report source).get k ≠ none) :
    (assemble source).report.get k ≠ none := by
  rw [get_report_assemble]
  split
  · simp
  · cases codeErrorAt source k with
    | some e => simp
    | none =>
      rw [Option.orElse_none]
      split
      · simp
      · next hmarker => exact h.resolve_left hmarker

/-- Settles O52: the line's own check reports at its number, and no later phase removes a message. -/
theorem badLinesAreReportedAtTheirNumber : Obligations.BadLinesAreReportedAtTheirNumber := by
  intro before after line hbad
  have hkey : 1 ≤ before.length + 1 := Nat.le_add_left _ _
  have hline : (before ++ line :: after)[before.length + 1 - 1]? = some line := by simp
  apply get_report_ne_none
  obtain hstarts | hmarker := hbad
  · refine .inr (get_checkBlanks_ne_none ?_ _ _)
    rw [get_checkStarts, if_pos ⟨hkey, by rw [hline]; exact hstarts⟩]
    simp
  · exact .inl ⟨hkey, by rw [hline]; exact (miscapitalised_iff line).2 hmarker⟩

/-! ### The blank-line message -/

theorem encodeOperand_ne_illegalBlankLine (m : Mnemonic) (o : Line) :
    encodeOperand m o ≠ .error .illegalBlankLine := by
  generalize hmode : selectMode o = mode
  cases hcap : capabilityError m mode with
  | some e =>
    rw [encodeOperand_of_capabilityError hmode hcap]
    rintro ⟨⟩
    cases mode <;> simp [capabilityError] at hcap
  | none =>
    cases hn : operandNumeral mode o with
    | some n =>
      rw [encodeOperand_of_numeral hmode hcap hn]
      rintro ⟨⟩
    | none =>
      rw [encodeOperand_of_notHex hmode hcap hn]
      cases mode <;> rintro ⟨⟩

theorem encodeArguments_ne_illegalBlankLine (m : Mnemonic) (args : List Line) :
    encodeArguments m args ≠ .error .illegalBlankLine := by
  unfold encodeArguments
  split
  · rintro ⟨⟩
  · rintro ⟨⟩
  · rintro ⟨⟩
  · exact encodeOperand_ne_illegalBlankLine m _
  · rintro ⟨⟩

theorem encodeLine_ne_illegalBlankLine (line : Line) : encodeLine line ≠ .error .illegalBlankLine := by
  cases htokens : tokens line with
  | nil =>
    rw [encodeLine_of_no_tokens htokens]
    rintro ⟨⟩
  | cons w args =>
    by_cases hexact : ∃ m, mnemonicName m = w
    · obtain ⟨m, hname⟩ := hexact
      rw [encodeLine_of_mnemonic htokens hname]
      exact encodeArguments_ne_illegalBlankLine m args
    · by_cases hupper : ∃ m, mnemonicName m = upper w
      · obtain ⟨m, hname⟩ := hupper
        rw [encodeLine_of_notUppercase htokens (not_exists.1 hexact) hname]
        rintro ⟨⟩
      · rw [encodeLine_of_notAMnemonic htokens (not_exists.1 hexact) (not_exists.1 hupper)]
        rintro ⟨⟩

theorem lineError_eq_some_iff {line : Line} {e : ErrorKind} : lineError line = some e ↔ encodeLine line = .error e := by
  unfold lineError
  cases encodeLine line <;> simp

theorem codeErrorAt_ne_illegalBlankLine (source : List Line) (k : Nat) :
    codeErrorAt source k ≠ some .illegalBlankLine := by
  unfold codeErrorAt
  split
  · intro hbind
    obtain ⟨line, -, hline⟩ := Option.bind_eq_some_iff.1 hbind
    exact encodeLine_ne_illegalBlankLine line (lineError_eq_some_iff.1 hline)
  · simp

/-- Only the blank-line check gives the message of a blank line (R153): where it leaves the report of R154 as it is, the
whole report has none. -/
theorem get_report_ne_illegalBlankLine {source : List Line} {k : Nat}
    (h : (phase1Report source).get k = (checkStarts 1 source []).get k) :
    (assemble source).report.get k ≠ some .illegalBlankLine := by
  have hstarts : (checkStarts 1 source []).get k ≠ some .illegalBlankLine := by
    rw [get_checkStarts]
    split <;> simp [Report.get_nil]
  have hcode := codeErrorAt_ne_illegalBlankLine source k
  rw [get_report_assemble, h]
  split
  · simp
  · cases herror : codeErrorAt source k with
    | some e => rwa [herror] at hcode
    | none =>
      rw [Option.orElse_none]
      split
      · simp
      · exact hstarts

/-- A blank line gives no message in phases 2 to 4: it is no marker, no code line, and skipped as a data line. -/
theorem get_report_of_blank {source : List Line} {k : Nat} (hk : 1 ≤ k) (hblank : source[k - 1]? = some []) :
    (assemble source).report.get k = (phase1Report source).get k := by
  have hdata : ¬ ((segments source).code.length + 2 ≤ k ∧
      ((segments source).data[k - ((segments source).code.length + 2)]?).any badData = true) := by
    rintro ⟨hle, hbad⟩
    obtain ⟨line, hline, hbad⟩ := (Option.any_eq_true _ _).1 hbad
    have hat := source_getElem?_of_data hline
    rw [show (segments source).code.length + 1 + (k - ((segments source).code.length + 2)) = k - 1 by omega, hblank]
      at hat
    cases hat
    exact absurd hbad (by decide)
  have hmarker : miscapitalised [] = false := by decide
  rw [get_report_assemble, if_neg hdata, hblank]
  simp [codeErrorAt, code_getElem?_of_blank hblank, hmarker]

theorem any_nonblank_iff (lines : List Line) : lines.any (fun l => !l.isEmpty) = true ↔ ∃ l ∈ lines, l ≠ [] := by
  simp

/-- Settles O53: the check of R155 reports at the first blank line's number exactly when a later line is not blank, and
no other phase touches that key or gives that message. -/
theorem firstBlankLineAnswersForLaterLines : Obligations.FirstBlankLineAnswersForLaterLines := by
  intro before after hbefore
  refine ⟨fun hafter => ?_, fun hafter k => get_report_ne_illegalBlankLine ?_,
    fun k => get_report_ne_illegalBlankLine ?_⟩
  · rw [get_report_of_blank (Nat.le_add_left _ _) (by simp), phase1Report, get_checkBlanks _ _ _ _ _ hbefore,
      if_pos ⟨Nat.add_comm _ _, (any_nonblank_iff after).2 hafter⟩]
  · have hnone : ¬ after.any (fun l => !l.isEmpty) = true := by
      rw [any_nonblank_iff]
      rintro ⟨l, hl, hne⟩
      exact hne (hafter l hl)
    rw [phase1Report, get_checkBlanks _ _ _ _ _ hbefore, if_neg fun h => hnone h.2]
  · rw [phase1Report, checkBlanks_no_blank _ _ _ hbefore]

/-! ### One data line -/

/-- A data line is two numerals (R169). -/
theorem readDataLine_eq_some_iff {line : Line} {x y : Word} : readDataLine line = some (x, y) ↔
    ∃ a v, tokens line = [a, v] ∧ hexNumeral a = some x ∧ hexNumeral v = some y := by
  constructor
  · intro h
    unfold readDataLine at h
    split at h
    · next a v htokens =>
      split at h
      · next hx hy =>
        cases h
        exact ⟨a, v, htokens, hx, hy⟩
      · cases h
    · cases h
  · rintro ⟨a, v, htokens, hx, hy⟩
    simp [readDataLine, htokens, hx, hy]

/-- Settles O58: two numerals make the line phase 4 emits; anything else is its error, which no later phase replaces. -/
theorem dataLinesNeedTwoNumerals : Obligations.DataLinesNeedTwoNumerals := by
  intro source p line hline hne
  constructor
  · intro a v x y htokens hx hy
    exact mem_encodeData (List.mem_of_getElem? hline) hne (readDataLine_eq_some_iff.2 ⟨a, v, htokens, hx, hy⟩)
  · intro hbad
    have hread : readDataLine line = none := by
      rw [Option.eq_none_iff_forall_ne_some]
      rintro ⟨x, y⟩ hsome
      obtain ⟨a, v, htokens, hx, hy⟩ := readDataLine_eq_some_iff.1 hsome
      exact hbad a v x y htokens hx hy
    have hkey : (segments source).code.length + 1 + (p + 1) - ((segments source).code.length + 2) = p := by omega
    have hbadData : badData line = true := by simp [badData, hread, hne]
    rw [get_report_assemble, hkey, hline, if_pos ⟨by omega, hbadData⟩]

end Sys2Proof.Assembler
end

section
/-! SUPPORT. Failures (60_exceptions.md): the lookup that finds no instruction (R56, R73, R201), and the machine that a
latched failure keeps halted under every command but `clear` and `reset` (R84, R208, R210). -/

namespace Sys2Proof.Machine

/-! ### A slot that holds no instruction -/

/-- The fifteen values of the opcode map are written out here once more, as numbers (R55). -/
theorem opcode_toNat_mem (m : Mnemonic) :
    m.opcode.toNat ∈ [0x0, 0x1, 0x2, 0x3, 0x4, 0x5, 0x6, 0x7, 0x8, 0x9, 0xA, 0xB, 0xC, 0xF, 0x14] := by
  cases m <;> decide

theorem step_of_unknownOpcode {s : State} {slot : Slot} (hfetch : Fetches s slot) (hop : lookupOpcode slot.op = none) :
    step s = .next (s.failed .unknownOpcode slot.op.toNat) := by
  obtain ⟨hterm, hrun, hpc, hslot⟩ := hfetch
  rw [step_of_fetch hterm hrun (fetch_in hpc hslot), decode_eq_error hop]
  exact congrArg Host.Outcome.next (raise_eq_failed _ s)

/-- Settles O4: a row of the table would make the opcode some mnemonic's, hence one of the fifteen; without a row the step
fails at the lookup, which reads neither the argument nor the level. -/
theorem unknownOpcodeFails : Obligations.UnknownOpcodeFails := by
  intro s slot hfetch hop
  refine step_of_unknownOpcode hfetch (Option.eq_none_iff_forall_ne_some.2 fun m hm => hop ?_)
  rw [lookupOpcode_eq_some hm]
  exact opcode_toNat_mem m

/-! ### A machine stopped by a failure -/

/-- The machine is halted with the failure `f` latched and these values of `acc` and `pc`. -/
structure State.Stopped (f : FaultRecord) (acc pc : Word) (s : State) : Prop where
  running_eq : s.running = false
  fault_eq : s.fault = some f
  acc_eq : s.acc = acc
  pc_eq : s.pc = pc

namespace State.Stopped

variable {f : FaultRecord} {acc pc : Word} {s t : State}

/-- The loader may replace the whole program and all of memory under a stopped machine (R233). -/
theorem loadedTo (h : s.Stopped f acc pc) (hload : s.LoadedTo t) : t.Stopped f acc pc := by
  obtain ⟨hrun, hfault, hacc, hpc⟩ := h
  rw [hload]
  exact ⟨hrun, hfault, hacc, hpc⟩

theorem startCommand (h : s.Stopped f acc pc) : (startCommand s).Stopped f acc pc := by
  have hlatched : s.fault ≠ none := by simp [h.fault_eq]
  rwa [startCommand_refused (.inr hlatched)]

theorem stepState (h : s.Stopped f acc pc) : (stepState s).Stopped f acc pc := by
  rwa [stepState_of_step (step_of_gate (.inr h.running_eq))]

theorem haltCommand (h : s.Stopped f acc pc) : (haltCommand s).Stopped f acc pc := by
  unfold Machine.haltCommand
  split
  · exact h
  · exact ⟨haltStrategy_running s, (haltStrategy_fault s).trans h.fault_eq, (haltStrategy_acc s).trans h.acc_eq,
      (haltStrategy_pc s).trans h.pc_eq⟩

theorem perform (h : s.Stopped f acc pc) {c : Command} (hclear : c ≠ .clear) (hreset : ∀ cfg, c ≠ .reset cfg) :
    (perform c s).Stopped f acc pc := by
  cases c with
  | reset cfg => exact absurd rfl (hreset cfg)
  | clear => exact absurd rfl hclear
  | start => exact h.startCommand
  | step => exact h.stepState
  | halt => exact h.haltCommand
  | loadWord a v => exact h.loadedTo (.loadWord s a v)
  | loadSlot i slot => exact h.loadedTo (.loadSlot s i slot)
  | loadImage image => exact h.loadedTo (.loadImage s image)
  | loadFile file => exact h.loadedTo (.loadFile s file)

theorem performAll {commands : List Command} (h : s.Stopped f acc pc)
    (hcommands : ∀ c ∈ commands, c ≠ .clear ∧ ∀ cfg, c ≠ .reset cfg) :
    (performAll commands s).Stopped f acc pc := by
  induction commands generalizing s with
  | nil => exact h
  | cons c rest ih =>
    obtain ⟨⟨hclear, hreset⟩, hrest⟩ := List.forall_mem_cons.1 hcommands
    exact ih (h.perform hclear hreset) hrest

end State.Stopped

/-- Settles O18: being stopped by this failure, at these values of `acc` and `pc`, is kept by each of the commands and so
by any sequence of them. -/
theorem latchedFailureNeverResumes : Obligations.LatchedFailureNeverResumes := by
  intro commands s f hfault hrun hcommands
  have hstopped : s.Stopped f s.acc s.pc := ⟨hrun, hfault, rfl, rfl⟩
  obtain ⟨hrun', hfault', hacc', hpc'⟩ := hstopped.performAll hcommands
  exact ⟨hrun', hfault', hacc', hpc'⟩

end Sys2Proof.Machine
end

section
/-! SUPPORT. Reset and hazards (70_reset_and_hazards.md): the values reset and `clear()` leave (R230, R231), the loader's
writes in file order (R233), and which slots of the encoder the engine accepts (R235). -/

namespace Sys2Proof.Machine

/-! ### Reset and `clear()` -/

/-- Settles O23: reset constructs a fresh machine, and every other command leaves a terminated machine as it is. -/
theorem resetState : Obligations.ResetState := by
  refine ⟨fun c s => ⟨State.construct c, rfl, rfl, rfl, Memory.read_nil, rfl, rfl, rfl, rfl, rfl, rfl⟩, ?_,
    Config.default, State.reset, rfl⟩
  intro c s hterm hleaves
  by_contra hreset
  have hfrozen : perform c s = s := terminatedMachineIsFrozen c s hterm (not_exists.1 hreset)
  rw [hfrozen, hterm] at hleaves
  cases hleaves

theorem clearCommand_of_live {s : State} (hterm : s.terminated = false) :
    clearCommand s = { s with acc := 0, pc := 0, mem := s.mem.cleared s.config.clearSkipsLast, lastChanged := none,
                              running := false, fault := none } := by
  simp [clearCommand, hterm]

/-- Settles O21: the cells are those of a cleared memory, in which only cell 511 may be spared. -/
theorem clearIsTheExplicitReset : Obligations.ClearIsTheExplicitReset := by
  refine fun s => ⟨fun hterm => terminatedMachineIsFrozen .clear s hterm nofun, fun hterm => ?_⟩
  refine ⟨_, clearCommand_of_live hterm, rfl, fun a ha => ?_, ?_⟩
  · rw [Memory.read_cleared, if_neg (by omega)]
  · simp [Memory.read_cleared]

/-! ### The loader's data writes in file order -/

/-- The state after storing every data word at its address, in order (R233). -/
def State.storeWords (s : State) (data : List (Word × Word)) : State :=
  data.foldl (fun t d => t.storeCell d.1.toInt.toNat d.2) s

theorem loadWord_inRange {s : State} {a v : Word} (hterm : s.terminated = false) (ha : InRange a) :
    loadWord a.toInt v s = ⟨s.storeCell a.toInt.toNat v, none⟩ := by
  simp [loadWord, hterm, memWrite_in ha]

/-- The data writes of the loader, none of them out of range. -/
theorem loadWords_inRange {s : State} {data : List (Word × Word)} (hterm : s.terminated = false)
    (hdata : ∀ d ∈ data, InRange d.1) : loadWords data s = ⟨s.storeWords data, none⟩ := by
  induction data generalizing s with
  | nil => rfl
  | cons d rest ih =>
    obtain ⟨hd, hrest⟩ := List.forall_mem_cons.1 hdata
    simp only [loadWords, loadWord_inRange hterm hd]
    exact ih hterm hrest

theorem State.storeWords_eq (s : State) (data : List (Word × Word)) :
    s.storeWords data =
      { s with mem := (s.storeWords data).mem, lastChanged := (s.storeWords data).lastChanged } := by
  induction data generalizing s with
  | nil => rfl
  | cons d rest ih => exact ih (s.storeCell d.1.toInt.toNat d.2)

/-- Each cell ends with the last word stored at its address. -/
theorem State.read_storeWords (s : State) (data : List (Word × Word)) (a : Nat) :
    (s.storeWords data).mem.read a =
      data.foldl (fun v d => if d.1.toInt.toNat = a then d.2 else v) (s.mem.read a) := by
  induction data generalizing s with
  | nil => rfl
  | cons d rest ih =>
    have hcell : (s.storeCell d.1.toInt.toNat d.2).mem.read a =
        if d.1.toInt.toNat = a then d.2 else s.mem.read a := by
      rw [State.storeCell_mem, Memory.read_write]
      simp only [eq_comm (a := a)]
    rw [List.foldl_cons, ← hcell]
    exact ih (s.storeCell d.1.toInt.toNat d.2)

/-- The load of a program that fits: its slots, then its data words (R232, R233). -/
theorem loadImage_of_fits {s : State} {image : Assembler.Image} (hterm : s.terminated = false)
    (hfits : image.code.length ≤ s.config.codeCapacity) (hdata : ∀ d ∈ image.data, InRange d.1) :
    loadImage image s = ⟨State.storeWords { s with code := image.code } image.data, none⟩ := by
  rw [loadImage, if_neg (Bool.eq_false_iff.1 hterm), if_pos hfits]
  exact loadWords_inRange hterm hdata

/-- Settles O24: the file reads back as its image, whose slots go in unchecked and whose data words are stored in order. -/
theorem loaderPutsTheProgramInPlace : Obligations.LoaderPutsTheProgramInPlace := by
  refine ⟨fun image s hterm hfits hdata => ?_, fun file s hread => ⟨.malformedFile, loadFile_of_none hread s⟩⟩
  have hload := loadImage_of_fits hterm hfits hdata
  exact ⟨_, hload, (loadFile_of_image (Assembler.readArtifact_file image) s).trans hload,
    State.storeWords_eq _ image.data, State.read_storeWords _ image.data⟩

end Sys2Proof.Machine

namespace Sys2Proof

/-! ### The instruction in a slot of a mnemonic -/

theorem decode_opcode (m : Mnemonic) (arg : Word) (lvl : Int) : decode ⟨m.opcode, arg, lvl⟩ = .ok (m.instr arg lvl) := by
  simp only [decode, lookupOpcode_opcode]

theorem Mnemonic.wellFormed_instr (m : Mnemonic) (arg : Word) (lvl : Int) :
    (m.instr arg lvl).wellFormed = m.allowsLevel lvl := by
  cases m <;> rfl

end Sys2Proof

namespace Sys2Proof.Assembler

/-! ### What the encoder makes -/

section
variable {m : Mnemonic} {slot : Slot}

/-- The inversion of `encodeOperand`: the slot has a permitted mode's level (R164, R167). -/
theorem encodeOperand_ok {o : Line} (h : encodeOperand m o = .ok slot) :
    ∃ mode n, capabilityError m mode = none ∧ slot = ⟨m.opcode, n, mode.level⟩ := by
  cases hcap : capabilityError m (selectMode o) with
  | some e =>
    rw [encodeOperand_of_capabilityError rfl hcap] at h
    cases h
  | none =>
    cases hn : operandNumeral (selectMode o) o with
    | none =>
      rw [encodeOperand_of_notHex rfl hcap hn] at h
      cases h
    | some n =>
      rw [encodeOperand_of_numeral rfl hcap hn] at h
      exact ⟨selectMode o, n, hcap, (Except.ok.inj h).symm⟩

/-- The inversion of `encodeArguments`: no operand at level 0, or one operand (R161, R163). -/
theorem encodeArguments_ok {args : List Line} (h : encodeArguments m args = .ok slot) :
    (m.descriptor.arity = .none ∧ slot = ⟨m.opcode, 0, 0⟩) ∨
      (m.descriptor.arity = .one ∧ ∃ o, encodeOperand m o = .ok slot) := by
  unfold encodeArguments at h
  split at h
  · next harity => exact .inl ⟨harity, (Except.ok.inj h).symm⟩
  · cases h
  · cases h
  · next o harity => exact .inr ⟨harity, o, h⟩
  · cases h

/-- The inversion of `encodeLine`: the first token was a mnemonic (R160). -/
theorem encodeLine_ok {line : Line} (h : encodeLine line = .ok slot) : ∃ m args, encodeArguments m args = .ok slot := by
  unfold encodeLine at h
  split at h
  · cases h
  · split at h
    · exact ⟨_, _, h⟩
    · split at h <;> cases h

end

/-! ### Arity and capability against the allowed levels (R57, R62) -/

theorem allowsLevel_zero_of_arity_none {m : Mnemonic} (h : m.descriptor.arity = .none) : m.allowsLevel 0 = true := by
  cases m <;> revert h <;> decide

theorem allowsLevel_zero_of_permitsImmediate {m : Mnemonic} (h : m.descriptor.permitsImmediate = true) :
    m.allowsLevel 0 = true := by
  cases m <;> revert h <;> decide

theorem allowsLevel_two_of_permitsIndirect {m : Mnemonic} (h : m.descriptor.permitsIndirect = true) :
    m.allowsLevel 2 = true := by
  cases m <;> revert h <;> decide

/-- Direct addressing is never refused (R164), and ROT alone of the mnemonics with an operand does not allow it (R57). -/
theorem allowsLevel_one_or_rot {m : Mnemonic} (h : m.descriptor.arity = .one) : m.allowsLevel 1 = true ∨ m = .rot := by
  cases m <;> revert h <;> decide

theorem allowsLevel_of_capability {m : Mnemonic} {mode : Mode} (harity : m.descriptor.arity = .one)
    (hcap : capabilityError m mode = none) : m.allowsLevel mode.level = true ∨ (m = .rot ∧ mode = .direct) := by
  cases mode with
  | immediate => exact .inl (allowsLevel_zero_of_permitsImmediate (by simpa [capabilityError] using hcap))
  | direct => exact (allowsLevel_one_or_rot harity).imp_right fun hrot => ⟨hrot, rfl⟩
  | indirect => exact .inl (allowsLevel_two_of_permitsIndirect (by simpa [capabilityError] using hcap))

/-- Settles O57: the arity and the capability check let through only levels the opcode allows, but for direct addressing,
which they never refuse and ROT alone does not allow. -/
theorem encodedSlotsAreLegalButRotDirect : Obligations.EncodedSlotsAreLegalButRotDirect := by
  intro line slot hline
  obtain ⟨m, args, hargs⟩ := encodeLine_ok hline
  rcases encodeArguments_ok hargs with ⟨harity, rfl⟩ | ⟨harity, o, ho⟩
  · refine ⟨_, decode_opcode m 0 0, .inl ?_⟩
    rw [Mnemonic.wellFormed_instr]
    exact allowsLevel_zero_of_arity_none harity
  · obtain ⟨mode, n, hcap, rfl⟩ := encodeOperand_ok ho
    refine ⟨_, decode_opcode m n mode.level, ?_⟩
    rcases allowsLevel_of_capability harity hcap with hlevel | ⟨rfl, rfl⟩
    · rw [Mnemonic.wellFormed_instr]
      exact .inl hlevel
    · exact .inr ⟨n, rfl⟩

end Sys2Proof.Assembler
end
